-- ==== Sys2Proof/Word.lean ====
section
/-! DEFINITION. The word types of the RM3 core (spec/00_scope.md R6: every value is an unsigned bit vector of a
stated width; R10: a byte is 8 bits). -/

namespace Sys2Proof

/-- R10: a byte is 8 bits. -/
abbrev Byte := BitVec 8

/-- A 32-bit value: the M32 state, BASE and LEN (R5 `W32`, `AW`, `LENW`). -/
abbrev Word32 := BitVec 32

/-- A 64-bit value: the M64 state, a 64-bit draw, response data (R5 `W64`). -/
abbrev Word64 := BitVec 64

/-- R60: a command is one 72-bit command word `CW` (R5 `CMDW`). -/
abbrev CommandWord := BitVec 72

end Sys2Proof
end

