-- ==== Sys2Proof/Syntax.lean ====
section
/-! DEFINITION. The commands of the RM3 core (spec/30_encoding.md R64, one constructor per row of
spec/opcode_table.json) and the commands of its assembler notation (R72, R73). -/

namespace Sys2Proof

/-- R64: the eight commands. The operands are those of R63 and R65: seed bytes in sequence order, BASE before LEN as in
the assembler notation of R72. -/
inductive Instr where
  /-- `M32.SEED b0, b1, b2, b3` (format S4, R84). -/
  | m32Seed (b0 b1 b2 b3 : Byte)
  /-- `M32.NEXT32` (format N, R85). -/
  | m32Next32
  /-- `M32.NEXT64` (format N, R86). -/
  | m32Next64
  /-- `M32.FILL base, len` (format F, R126). -/
  | m32Fill (base len : Word32)
  /-- `M64.SEED b0, b1, b2, b3, b4, b5, b6, b7` (format S8, R104). -/
  | m64Seed (b0 b1 b2 b3 b4 b5 b6 b7 : Byte)
  /-- `M64.NEXT32` (format N, R106). -/
  | m64Next32
  /-- `M64.NEXT64` (format N, R105). -/
  | m64Next64
  /-- `M64.FILL base, len` (format F, R127). -/
  | m64Fill (base len : Word32)
deriving DecidableEq, Repr

/-- R1, R2: the two units. -/
inductive MixUnit where
  | m32
  | m64
deriving DecidableEq, Repr

/-- R72, R73: a command as written in the assembler notation. The numbers are not yet checked against their ranges
(a number out of range is an assembly error, not a command). -/
inductive AsmCommand where
  | m32Seed (b0 b1 b2 b3 : Nat)
  | m64Seed (b0 b1 b2 b3 b4 b5 b6 b7 : Nat)
  | m32Next32
  | m32Next64
  | m64Next32
  | m64Next64
  | m32Fill (base len : Nat)
  | m64Fill (base len : Nat)
  /-- The pseudo-instruction `M32.SEEDW v` (R73). -/
  | m32Seedw (v : Nat)
  /-- The pseudo-instruction `M64.SEEDW v` (R73). -/
  | m64Seedw (v : Nat)
deriving DecidableEq, Repr

/-- The unit a command belongs to (R62 `UNIT`). -/
def Instr.unit : Instr → MixUnit
  | .m32Seed _ _ _ _ => .m32
  | .m32Next32 => .m32
  | .m32Next64 => .m32
  | .m32Fill _ _ => .m32
  | .m64Seed _ _ _ _ _ _ _ _ => .m64
  | .m64Next32 => .m64
  | .m64Next64 => .m64
  | .m64Fill _ _ => .m64

/-- The mnemonic of R64. -/
def Instr.mnemonic : Instr → String
  | .m32Seed _ _ _ _ => "M32.SEED"
  | .m32Next32 => "M32.NEXT32"
  | .m32Next64 => "M32.NEXT64"
  | .m32Fill _ _ => "M32.FILL"
  | .m64Seed _ _ _ _ _ _ _ _ => "M64.SEED"
  | .m64Next32 => "M64.NEXT32"
  | .m64Next64 => "M64.NEXT64"
  | .m64Fill _ _ => "M64.FILL"

end Sys2Proof
end

