-- ==== Sys2Proof/WellFormed.lean ====
section
/-! DEFINITION. What a term must satisfy to be a command.

* `CommandWord.illegal`: the three causes of spec/30_encoding.md R66, written from R66 and not from the decoder.
* `AsmCommand.wellFormed`: the number ranges of R72 and R73.
* `Instr.wellFormed`: every value of every operand of a command is legal (R65), and the operand widths are those of the
  types, so nothing is left to check. -/

namespace Sys2Proof

/-- R66 (a): a reserved opcode bit is set. -/
def CommandWord.reservedOpcode (cw : CommandWord) : Bool :=
  cw.extractLsb' 67 5 != 0#5

/-- R66 (b): the opcode is of format N and the payload is not zero. -/
def CommandWord.nonzeroPayloadN (cw : CommandWord) : Bool :=
  [0x01#8, 0x02#8, 0x05#8, 0x06#8].contains (cw.extractLsb' 64 8) && cw.extractLsb' 0 64 != 0#64

/-- R66 (c): the opcode is of format S4 and bits 63:32 are not zero. -/
def CommandWord.nonzeroReservedS4 (cw : CommandWord) : Bool :=
  cw.extractLsb' 64 8 == 0x00#8 && cw.extractLsb' 32 32 != 0#32

/-- R66: a word is illegal exactly when one of the three causes holds. -/
def CommandWord.illegal (cw : CommandWord) : Bool :=
  CommandWord.reservedOpcode cw || CommandWord.nonzeroPayloadN cw || CommandWord.nonzeroReservedS4 cw

/-- R65: "every value of every lane is legal" and "every value of LEN and BASE is legal as an encoding". -/
def Instr.wellFormed : Instr → Bool
  | .m32Seed _ _ _ _ => true
  | .m32Next32 => true
  | .m32Next64 => true
  | .m32Fill _ _ => true
  | .m64Seed _ _ _ _ _ _ _ _ => true
  | .m64Next32 => true
  | .m64Next64 => true
  | .m64Fill _ _ => true

/-- R72, R73: `byte` is 0 .. 255, `base` and `len` are 0 .. 4294967295, a SEEDW value has the width of its unit. -/
def AsmCommand.wellFormed : AsmCommand → Bool
  | .m32Seed b0 b1 b2 b3 => [b0, b1, b2, b3].all (fun b => decide (b ≤ 255))
  | .m64Seed b0 b1 b2 b3 b4 b5 b6 b7 => [b0, b1, b2, b3, b4, b5, b6, b7].all (fun b => decide (b ≤ 255))
  | .m32Next32 => true
  | .m32Next64 => true
  | .m64Next32 => true
  | .m64Next64 => true
  | .m32Fill base len => decide (base ≤ 4294967295) && decide (len ≤ 4294967295)
  | .m64Fill base len => decide (base ≤ 4294967295) && decide (len ≤ 4294967295)
  | .m32Seedw v => decide (v < 2 ^ 32)
  | .m64Seedw v => decide (v < 2 ^ 64)

end Sys2Proof
end

