-- ==== Sys2Proof/Decode.lean ====
section
/-! DEFINITION. Decoding and encoding of command words (spec/30_encoding.md R61 to R69): the fields of R61 to R63, the
opcode map of R64, the total decoder of R68 and the encoder written from the same tables. -/

namespace Sys2Proof

/-- R66: why a word is no command. -/
inductive IllegalWord where
  /-- `OP[7:3] != 0` (R66 (a)). -/
  | reservedOpcode
  /-- Format N and `CW[63:0] != 0` (R66 (b)). -/
  | nonzeroPayload
  /-- Format S4 and `CW[63:32] != 0` (R66 (c)). -/
  | nonzeroReserved
deriving DecidableEq, Repr

/-- R61: `OP = CW[71:64]`. -/
def opField (cw : CommandWord) : BitVec 8 := cw.extractLsb' 64 8

/-- R61: `PAYLOAD = CW[63:0]`. -/
def payloadField (cw : CommandWord) : Word64 := cw.extractLsb' 0 64

/-- R63: seed byte lane `j` is `CW[8j+7 : 8j]`. -/
def seedLane (p : Word64) (j : Nat) : Byte := p.extractLsb' (8 * j) 8

/-- R63, R65: `BASE = CW[31:0]`. -/
def baseField (p : Word64) : Word32 := p.extractLsb' 0 32

/-- R63, R65: `LEN = CW[63:32]`; the same bits are reserved in format S4. -/
def lenField (p : Word64) : Word32 := p.extractLsb' 32 32

/-- Format N (R63): no operand, the payload must be zero. -/
def decodeN (i : Instr) (p : Word64) : Except IllegalWord Instr :=
  if p = 0#64 then .ok i else .error .nonzeroPayload

/-- R68: the total decoder. The last branch is `OP[7:3] != 0`: the eight opcodes before it are all the others. -/
def decode (cw : CommandWord) : Except IllegalWord Instr :=
  let op := opField cw
  let p := payloadField cw
  if op = 0x00#8 then
    if lenField p = 0#32 then .ok (.m32Seed (seedLane p 0) (seedLane p 1) (seedLane p 2) (seedLane p 3))
    else .error .nonzeroReserved
  else if op = 0x01#8 then decodeN .m32Next32 p
  else if op = 0x02#8 then decodeN .m32Next64 p
  else if op = 0x03#8 then .ok (.m32Fill (baseField p) (lenField p))
  else if op = 0x04#8 then
    .ok (.m64Seed (seedLane p 0) (seedLane p 1) (seedLane p 2) (seedLane p 3)
      (seedLane p 4) (seedLane p 5) (seedLane p 6) (seedLane p 7))
  else if op = 0x05#8 then decodeN .m64Next32 p
  else if op = 0x06#8 then decodeN .m64Next64 p
  else if op = 0x07#8 then .ok (.m64Fill (baseField p) (lenField p))
  else .error .reservedOpcode

/-- R62, R64: the opcode byte of a command. -/
def Instr.opcode : Instr → BitVec 8
  | .m32Seed _ _ _ _ => 0x00#8
  | .m32Next32 => 0x01#8
  | .m32Next64 => 0x02#8
  | .m32Fill _ _ => 0x03#8
  | .m64Seed _ _ _ _ _ _ _ _ => 0x04#8
  | .m64Next32 => 0x05#8
  | .m64Next64 => 0x06#8
  | .m64Fill _ _ => 0x07#8

/-- R63: the payload of a command, its highest field first. -/
def Instr.payload : Instr → Word64
  | .m32Seed b0 b1 b2 b3 => 0#32 ++ b3 ++ b2 ++ b1 ++ b0
  | .m32Next32 => 0#64
  | .m32Next64 => 0#64
  | .m32Fill base len => len ++ base
  | .m64Seed b0 b1 b2 b3 b4 b5 b6 b7 => b7 ++ b6 ++ b5 ++ b4 ++ b3 ++ b2 ++ b1 ++ b0
  | .m64Next32 => 0#64
  | .m64Next64 => 0#64
  | .m64Fill base len => len ++ base

/-- R61: the command word of a command, `OP` above `PAYLOAD`. -/
def encode (i : Instr) : CommandWord := i.opcode ++ i.payload

/-- A row of the opcode map of R64: a word selects it when `CW & mask = value`. -/
structure OpcodeRow where
  mnemonic : String
  mask : CommandWord
  value : CommandWord
deriving DecidableEq, Repr

/-- R64: a word selects a row when `CW & mask = match`. -/
def OpcodeRow.selects (r : OpcodeRow) (cw : CommandWord) : Bool := cw &&& r.mask == r.value

/-- R64: the opcode map, in the order of its table (spec/opcode_table.json holds the same eight rows). -/
def opcodeMap : List OpcodeRow :=
  [ ⟨"M32.SEED", 0xFFFFFFFFFF00000000#72, 0x000000000000000000#72⟩,
    ⟨"M32.NEXT32", 0xFFFFFFFFFFFFFFFFFF#72, 0x010000000000000000#72⟩,
    ⟨"M32.NEXT64", 0xFFFFFFFFFFFFFFFFFF#72, 0x020000000000000000#72⟩,
    ⟨"M32.FILL", 0xFF0000000000000000#72, 0x030000000000000000#72⟩,
    ⟨"M64.SEED", 0xFF0000000000000000#72, 0x040000000000000000#72⟩,
    ⟨"M64.NEXT32", 0xFFFFFFFFFFFFFFFFFF#72, 0x050000000000000000#72⟩,
    ⟨"M64.NEXT64", 0xFFFFFFFFFFFFFFFFFF#72, 0x060000000000000000#72⟩,
    ⟨"M64.FILL", 0xFF0000000000000000#72, 0x070000000000000000#72⟩ ]

/-- The 72-bit command word whose low `nbits` bits are those of `w` and whose other bits are zero: bit `i` of `w` is
`CW[i]`, the numbering of R61 and of spec/opcode_table.json (log entry 17). -/
def commandWordOfBits (nbits w : Nat) : CommandWord := BitVec.ofNat 72 (w % 2 ^ nbits)

/-- What the decoder reads from a word numbered as spec/opcode_table.json numbers it; none where it refuses. A command
word is one bit vector and no byte sequence (R60), so there is no byte order to apply (R61). -/
def decodeTableWord (nbits w : Nat) : Option Instr :=
  match decode (commandWordOfBits nbits w) with
  | .ok i => some i
  | .error _ => none

end Sys2Proof
end

