-- ==== Sys2Proof/Config.lean ====
section
/-! DEFINITION. What the spec leaves open: the parameter BYTE_ORDER (spec/00_scope.md R5, spec/20_memory.md R44) and
the free choice of spec/70_reset_and_hazards.md R161. Both constants have no body, so nothing can be proved of a value
of theirs. The parameters the spec fixes stand in Machine/Params.lean. -/

namespace Sys2Proof

/-- R5, R44: the two values of the open parameter BYTE_ORDER. -/
inductive ByteOrder where
  | little
  | big
deriving DecidableEq, Repr, Inhabited

/-- DESIGN CHOICE (log entry 1), safe: the byte order of the core that `State.reset` describes. The spec does not fix it
(R44: "A model therefore proves claims for both values or takes the value as an argument"), so it has no body. -/
opaque Config.byteOrder : ByteOrder

/-- DESIGN CHOICE (log entry 12), safe: whether the `k`-th fill that a reset interrupts had already written the byte at
an address. R161 leaves open which bytes of the range were written ("any subset"), so it has no body. -/
opaque Config.interruptedFillWrote : Nat → Nat → Bool

end Sys2Proof
end

