-- ==== Sys2Proof/Machine/State.lean ====
section
/-! DEFINITION. The state of one RM3 core (spec/10_state.md: `S32`, `V32`, `S64`, `V64`; "There is nothing else"), the
buffer space BUF it writes (spec/20_memory.md R40), its byte order parameter (R44) and the two ends of its command port
(spec/30_encoding.md R60, R70): the host events not yet performed and the responses given. Plain data throughout. -/

namespace Sys2Proof.Machine

/-- BUF (R40) as the bytes that are known: pairs of an address and a byte, addresses strictly rising
(`Memory.wf`). An unlisted address holds no value the model knows (log entry 6). -/
abbrev Memory := List Host.Cell

/-- R71: the outcome code of a response. -/
inductive Code where
  /-- The command was performed. -/
  | ok
  /-- R142: the word is no command. -/
  | illegalCommand
  /-- R143: a draw or a fill on a unit not seeded since reset. -/
  | unseeded
  /-- R144: a fill whose range leaves BUF. -/
  | bufferRange
deriving DecidableEq, Repr

/-- R70: a response record, `CODE` and `DATA`. -/
structure Response where
  code : Code
  data : Word64
deriving DecidableEq, Repr

/-- R170: what the host can send. -/
inductive HostEvent where
  /-- A command word (R60). -/
  | command (cw : CommandWord)
  /-- A reset between commands (R160). -/
  | reset
  /-- A reset that arrives while the command `cw` is being performed (R161). -/
  | resetDuring (cw : CommandWord)
deriving DecidableEq, Repr

/-- The state of one RM3 core with its port. -/
structure State where
  /-- `S32` (R21). -/
  s32 : Word32
  /-- `V32` (R25): M32 is seeded. -/
  v32 : Bool
  /-- `S64` (R22). -/
  s64 : Word64
  /-- `V64` (R25): M64 is seeded. -/
  v64 : Bool
  /-- `BUF` (R40), owned by the host, written by fills. -/
  buf : Memory
  /-- `BYTE_ORDER` (R44), a parameter: no step changes it. -/
  byteOrder : ByteOrder
  /-- What the host has presented and the block has not yet performed, first one first (log entry 3). -/
  pending : List HostEvent
  /-- The responses given so far, oldest first (log entry 4): the host's view, never read by the block. -/
  responses : List Response
  /-- The model's own field: how many resets have arrived during a command (log entry 12). -/
  freeIndex : Nat
deriving DecidableEq, Repr

/-- Why the machine stops. Illegal words, unseeded units and ranges outside BUF are no faults: the spec describes what
they do (R140), and the model does it. -/
inductive Fault where
  /-- `memWrite` raises it when its precondition `addr + n <= 2^AW` fails (R42: there is no such address). Safe: it stops
  where the spec says nothing; no step reaches it, because a fill checks its range first (R121; log entry 13). -/
  | outsideBuf (addr : Nat)
deriving DecidableEq, Repr

/-- Why an instruction has no meaning. -/
inductive Refusal where
  /-- `exec` raises it for an instruction that is not modelled yet. Safe: it stops where the hardware goes on. Every
  instruction has its meaning, so no arm of `exec` answers it. -/
  | notModelled (mnemonic : String)
deriving DecidableEq, Repr

/-- The state right after reset of a core whose byte order is `bo` (R32, R160): both flags 0. DESIGN CHOICE (log entry 2),
unsafe: `S32` and `S64`, which hold no specified value, are 0. DESIGN CHOICE (log entries 3, 4, 6, 12): nothing is
pending, no response has been given, no byte of BUF is known, the free index is 0. -/
def State.resetWith (bo : ByteOrder) : State :=
  { s32 := 0#32, v32 := false, s64 := 0#64, v64 := false, buf := [], byteOrder := bo,
    pending := [], responses := [], freeIndex := 0 }

/-- The machine right after reset, its byte order open (log entry 1). -/
def State.reset : State := State.resetWith Config.byteOrder

end Sys2Proof.Machine
end

