-- ==== Sys2Proof/Machine/Flags.lean ====
section
/-! DEFINITION. The two flags `V32` and `V64` (spec/10_state.md R25): read by draws and fills, set by a seed command,
cleared by reset. There are no others: no arithmetic result sets a flag. -/

namespace Sys2Proof.Machine

/-- R25: the flag of a unit. -/
def State.seeded (s : State) : MixUnit → Bool
  | .m32 => s.v32
  | .m64 => s.v64

/-- R25: `V32 <- 1`. -/
def State.setV32 (s : State) : State := { s with v32 := true }

/-- R25: `V64 <- 1`. -/
def State.setV64 (s : State) : State := { s with v64 := true }

/-- R25, R160: reset clears both flags. -/
def State.clearFlags (s : State) : State := { s with v32 := false, v64 := false }

end Sys2Proof.Machine
end

