-- ==== Sys2Proof/Machine/Params.lean ====
section
/-! DEFINITION. The fixed parameters of spec/00_scope.md R5, with the constants of spec/40_mixer32.md R80 and
spec/41_mixer64.md R100. The open parameter BYTE_ORDER stands in Config.lean. -/

namespace Sys2Proof.Machine

/-- R80 `C1`. -/
def mix32C1 : Word32 := 0xcc9e2d51#32

/-- R80 `C2`. -/
def mix32C2 : Word32 := 0x1b873593#32

/-- R80 `ROT`. -/
def mix32Rot : Nat := 15

/-- R100 `K1`. -/
def mix64K1 : Word64 := 0xff51afd7ed558ccd#64

/-- R100 `K2`. -/
def mix64K2 : Word64 := 0xc4ceb9fe1a85ec53#64

/-- R100 `SH`. -/
def mix64Shift : Nat := 33

/-- R5 `FILL_UNIT`: bytes of the primary fill chunk. -/
def fillUnit : Nat := 8

/-- R5, R123 `FILL_TAIL32_MAX`: the longest tail, in bytes, served by a 32-bit draw. -/
def fillTail32Max : Nat := 3

/-- R5 `AW`, R40: the number of addresses of BUF. -/
def bufSize : Nat := 2 ^ 32

end Sys2Proof.Machine
end

