-- ==== Sys2Proof/Machine/Memory.lean ====
section
/-! DEFINITION. BUF as data (spec/20_memory.md R40 to R46): reading and writing one byte, writing a run of bytes in
ascending address order, the canonical form, and the mixture of two contents that R161 asks for. -/

namespace Sys2Proof.Machine

/-- The byte at an address, or none where no value is known (log entry 6). The block never reads BUF (R41): this is the
host's view and the claims'. -/
def Memory.read : Memory → Nat → Option Byte
  | [], _ => none
  | (a', b') :: rest, a => if a = a' then some b' else Memory.read rest a

/-- R46: a single-byte write, keeping the addresses strictly rising. -/
def Memory.write : Memory → Nat → Byte → Memory
  | [], a, b => [(a, b)]
  | (a', b') :: rest, a, b =>
    if a < a' then (a, b) :: (a', b') :: rest
    else if a = a' then (a, b) :: rest
    else (a', b') :: Memory.write rest a b

/-- R42, R46: single-byte writes in ascending address order. -/
def Memory.store : Memory → Nat → List Byte → Memory
  | m, _, [] => m
  | m, a, b :: bs => Memory.store (Memory.write m a b) (a + 1) bs

/-- The addresses are at least `lo`, strictly rising, and addresses of BUF. -/
def Memory.wfFrom : Nat → Memory → Bool
  | _, [] => true
  | lo, (a, _) :: rest => decide (lo ≤ a) && decide (a < bufSize) && Memory.wfFrom (a + 1) rest

/-- The canonical form: strictly rising addresses of BUF (R40). An unlisted address reads as no value, so a listed byte
never equals it. -/
def Memory.wf (m : Memory) : Bool := Memory.wfFrom 0 m

/-- R161: the content after a fill of `n` bytes at `a` was cut short, where `old` and `new` are the contents before it
and after all of it, and `wrote` says which bytes had been written. -/
def Memory.mixture (wrote : Nat → Bool) (old new : Memory) (a : Nat) : Nat → Memory
  | 0 => old
  | n + 1 =>
    let m := Memory.mixture wrote old new a n
    match wrote (a + n), Memory.read new (a + n) with
    | true, some b => Memory.write m (a + n) b
    | true, none => m
    | false, _ => m

end Sys2Proof.Machine
end

