-- ==== Sys2Proof/Machine/Operands.lean ====
section
/-! DEFINITION. Operand interpretation: byte sequences under BYTE_ORDER (spec/00_scope.md R10), the seed operand of each
unit (spec/40_mixer32.md R83, spec/41_mixer64.md R103), and BASE and LEN (spec/30_encoding.md R65, R121). -/

namespace Sys2Proof.Machine

/-- R10, little: `sum over j of b[j] * 2^(8*j)`. -/
def fromBytesLittle : List Byte → Nat
  | [] => 0
  | b :: bs => b.toNat + 256 * fromBytesLittle bs

/-- R10 `from_bytes`: the unsigned integer a byte sequence denotes. -/
def fromBytes (bo : ByteOrder) (bs : List Byte) : Nat :=
  match bo with
  | .little => fromBytesLittle bs
  | .big => fromBytesLittle bs.reverse

/-- R10, little: byte `j` is `v[8*j+7 : 8*j]`. -/
def toBytesLittle : Nat → Nat → List Byte
  | _, 0 => []
  | v, n + 1 => BitVec.ofNat 8 v :: toBytesLittle (v / 256) n

/-- R10 `to_bytes`: the byte sequence of length `n` that denotes the `8n`-bit value `v`. -/
def toBytes (bo : ByteOrder) (v n : Nat) : List Byte :=
  match bo with
  | .little => toBytesLittle v n
  | .big => (toBytesLittle v n).reverse

/-- R124: a word truncated, as an integer, to its `t` low-order bytes: `w[8*t-1 : 0] = w mod 2^(8*t)`. -/
def lowBytes (w t : Nat) : Nat := w % 2 ^ (8 * t)

/-- R83 `SeedValue32`. -/
def seedValue32 (bo : ByteOrder) (b0 b1 b2 b3 : Byte) : Word32 :=
  BitVec.ofNat 32 (fromBytes bo [b0, b1, b2, b3])

/-- R103 `SeedValue64`. -/
def seedValue64 (bo : ByteOrder) (b0 b1 b2 b3 b4 b5 b6 b7 : Byte) : Word64 :=
  BitVec.ofNat 64 (fromBytes bo [b0, b1, b2, b3, b4, b5, b6, b7])

/-- R121: the range check, its sum taken over the integers. -/
def rangeOk (base len : Word32) : Bool := decide (base.toNat + len.toNat ≤ bufSize)

/-- The range a command names in BUF, as a base address and a length: only fills name one (R41). -/
def Instr.fillRange : Instr → Nat × Nat
  | .m32Seed _ _ _ _ => (0, 0)
  | .m32Next32 => (0, 0)
  | .m32Next64 => (0, 0)
  | .m32Fill base len => (base.toNat, len.toNat)
  | .m64Seed _ _ _ _ _ _ _ _ => (0, 0)
  | .m64Next32 => (0, 0)
  | .m64Next64 => (0, 0)
  | .m64Fill base len => (base.toNat, len.toNat)

end Sys2Proof.Machine
end

