-- ==== Sys2Proof/Machine/Ops.lean ====
section
/-! DEFINITION. The operations the commands share: register writes, the response (spec/30_encoding.md R70), taking a
refusal (spec/60_exceptions.md R140), MemWrite (spec/20_memory.md R42), the checks in front of a draw and of a fill
(R143, R144, R146), and reset (spec/70_reset_and_hazards.md R160). -/

namespace Sys2Proof.Machine

/-- One step's outcome in this machine. -/
abbrev Result := Host.Outcome State Fault Refusal

/-- Go on from a next state; a stop stays a stop. -/
def andThen (o : Result) (k : State → Result) : Result :=
  match o with
  | .next s => k s
  | .fault r => .fault r
  | .refused r => .refused r

/-- `S32 <- w`. -/
def State.setS32 (s : State) (w : Word32) : State := { s with s32 := w }

/-- `S64 <- w`. -/
def State.setS64 (s : State) (w : Word64) : State := { s with s64 := w }

/-- The content of BUF replaced. -/
def State.setBuf (s : State) (m : Memory) : State := { s with buf := m }

/-- What is still to be performed replaced. -/
def State.setPending (s : State) (es : List HostEvent) : State := { s with pending := es }

/-- R70, R11 `respond(code, data)`: the response of the command goes to the host. -/
def State.respond (s : State) (c : Code) (d : Word64) : State :=
  { s with responses := s.responses ++ [⟨c, d⟩] }

/-- R140 `raise X`, TAKING A REFUSAL: no state element and no byte of BUF changes, the response is (code of X, 0). The
spec saves nothing, vectors nowhere and has no return from it (R149): the next command runs as if nothing had been
sent. -/
def State.refuse (s : State) (c : Code) : State := s.respond c 0#64

/-- R71: the value of `CODE`. -/
def Code.bits : Code → BitVec 2
  | .ok => 0#2
  | .illegalCommand => 1#2
  | .unseeded => 2#2
  | .bufferRange => 3#2

/-- R70: the 66-bit response record, `CODE` in bits 65:64 and `DATA` in bits 63:0. -/
def Response.bits (r : Response) : BitVec 66 := r.code.bits ++ r.data

/-- R42 `MemWrite(addr, n, v)`: byte `j` of `to_bytes(v, n)` goes to `addr + j`, in ascending order of `j`. Where the
precondition `addr + n <= 2^AW` fails there is no such address. -/
def memWrite (addr n v : Nat) (s : State) : Result :=
  if addr + n ≤ bufSize then .next (s.setBuf (Memory.store s.buf addr (toBytes s.byteOrder v n)))
  else .fault (.outsideBuf addr)

/-- R143: a draw or fill on an unseeded unit is refused with `Unseeded`, nothing else done. -/
def whenSeeded (u : MixUnit) (s : State) (k : State → Result) : Result :=
  if s.seeded u then k s else .next (s.refuse .unseeded)

/-- R121, R144: a fill whose range leaves BUF is refused with `BufferRange`, before any draw or write. -/
def whenInRange (base len : Word32) (s : State) (k : State → Result) : Result :=
  if rangeOk base len then k s else .next (s.refuse .bufferRange)

/-- R160: reset clears both flags, leaves BUF as it is and gives no response. `S32` and `S64` hold no specified value
after it; the model has them 0 as `State.resetWith` has (DESIGN CHOICE, log entry 2, unsafe). -/
def State.takeReset (s : State) : State := ((s.clearFlags).setS32 0#32).setS64 0#64

/-- The host presents a command word ahead of whatever else is pending (log entry 3). -/
def State.present (s : State) (cw : CommandWord) : State := s.setPending (.command cw :: s.pending)

end Sys2Proof.Machine
end

