-- ==== Sys2Proof/Machine/Mixer32.lean ====
section
/-! DEFINITION. Mixer32 (spec/40_mixer32.md): the transition `mix32` (R81), `Advance32` (R82), and the commands
`M32.SEED` (R84), `M32.NEXT32` (R85), `M32.NEXT64` (R86). -/

namespace Sys2Proof.Machine

/-- R8 `rotl32(v, r)`: `trunc_32(v * 2^r) | (v >> (32 - r))`. -/
def rotl32 (v : Word32) (r : Nat) : Word32 := (v <<< r) ||| (v >>> (32 - r))

/-- R81: multiply by `C1`, rotate left by 15, multiply by `C2`, each product modulo `2^32` (R7). The constant stands
first in each product, which `mul_32` does not see, so that unfolding a draw of a symbolic state never counts the constant
down. -/
def mix32 (s : Word32) : Word32 :=
  let m1 := mix32C1 * s
  let r := rotl32 m1 mix32Rot
  mix32C2 * r

/-- R82 `Advance32`: the value returned and the state after, `S32` being that value. -/
def advance32 (s : State) : Word32 × State := (mix32 s.s32, s.setS32 (mix32 s.s32))

/-- R86, R120 `Draw64(M32)`: two advances, the first in the low half. -/
def draw64M32 (s : State) : Word64 × State :=
  let lo := advance32 s
  let hi := advance32 lo.2
  (hi.1 ++ lo.1, hi.2)

/-- R84 `M32.SEED`. -/
def execM32Seed (b0 b1 b2 b3 : Byte) (s : State) : Result :=
  .next (((s.setS32 (seedValue32 s.byteOrder b0 b1 b2 b3)).setV32).respond .ok 0#64)

/-- R85 `M32.NEXT32`. -/
def execM32Next32 (s : State) : Result :=
  whenSeeded .m32 s fun s =>
    let w := advance32 s
    .next (w.2.respond .ok (w.1.setWidth 64))

/-- R86 `M32.NEXT64`. -/
def execM32Next64 (s : State) : Result :=
  whenSeeded .m32 s fun s =>
    let w := draw64M32 s
    .next (w.2.respond .ok w.1)

end Sys2Proof.Machine
end

