-- ==== Sys2Proof/Machine/Mixer64.lean ====
section
/-! DEFINITION. Mixer64 (spec/41_mixer64.md): the transition `mix64` (R101), `Advance64` (R102), and the commands
`M64.SEED` (R104), `M64.NEXT64` (R105), `M64.NEXT32` (R106). -/

namespace Sys2Proof.Machine

/-- A xor-shift stage of R101: `k ^ (k >> 33)`, a logical shift (R9). -/
def xorShift (k : Word64) : Word64 := k ^^^ (k >>> mix64Shift)

/-- R101: xor-shift, multiply by `K1`, xor-shift, multiply by `K2`, xor-shift, each product modulo `2^64` (R7). The
constant stands first in each product, as in `mix32`. -/
def mix64 (s : Word64) : Word64 :=
  let k1 := xorShift s
  let k2 := mix64K1 * k1
  let k3 := xorShift k2
  let k4 := mix64K2 * k3
  xorShift k4

/-- R102 `Advance64`: the value returned and the state after, `S64` being that value. -/
def advance64 (s : State) : Word64 × State := (mix64 s.s64, s.setS64 (mix64 s.s64))

/-- R106, R120 `Draw32(M64)`: the low half of one full 64-bit advance; the high half is kept nowhere but in `S64`. -/
def draw32M64 (s : State) : Word32 × State :=
  let w := advance64 s
  (w.1.extractLsb' 0 32, w.2)

/-- R104 `M64.SEED`. -/
def execM64Seed (b0 b1 b2 b3 b4 b5 b6 b7 : Byte) (s : State) : Result :=
  .next (((s.setS64 (seedValue64 s.byteOrder b0 b1 b2 b3 b4 b5 b6 b7)).setV64).respond .ok 0#64)

/-- R105 `M64.NEXT64`. -/
def execM64Next64 (s : State) : Result :=
  whenSeeded .m64 s fun s =>
    let w := advance64 s
    .next (w.2.respond .ok w.1)

/-- R106 `M64.NEXT32`. -/
def execM64Next32 (s : State) : Result :=
  whenSeeded .m64 s fun s =>
    let w := draw32M64 s
    .next (w.2.respond .ok (w.1.setWidth 64))

end Sys2Proof.Machine
end

