-- ==== Sys2Proof/Machine/FillBytes.lean ====
section
/-! DEFINITION. The byte-fill commands (spec/42_fill_bytes.md): the draws of each unit (R120), the helper `FillBytes`
(R122 to R124) and `M32.FILL` (R126), `M64.FILL` (R127). -/

namespace Sys2Proof.Machine

/-- R120 `Draw64(U)`. -/
def draw64 : MixUnit → State → Word64 × State
  | .m32, s => draw64M32 s
  | .m64, s => advance64 s

/-- R120 `Draw32(U)`. -/
def draw32 : MixUnit → State → Word32 × State
  | .m32, s => advance32 s
  | .m64, s => draw32M64 s

/-- R122, whole chunks: draw a 64-bit word, write its 8 bytes at `addr`, go on 8 bytes further, as many times as the
last number says. -/
def fillChunks (u : MixUnit) : Nat → Nat → State → Result
  | _, 0, s => .next s
  | addr, q + 1, s =>
    let w := draw64 u s
    andThen (memWrite addr fillUnit w.1.toNat w.2) (fillChunks u (addr + fillUnit) q)

/-- R122 to R124, the tail of `t` bytes at `addr`: from a 64-bit draw when `t` is over FILL_TAIL32_MAX, from a 32-bit
draw when it is not, and nothing at all when it is 0. Only the `t` low-order bytes of the word are written. -/
def fillTail (u : MixUnit) (addr t : Nat) (s : State) : Result :=
  if fillTail32Max < t then
    let w := draw64 u s
    memWrite addr t (lowBytes w.1.toNat t) w.2
  else if 1 ≤ t then
    let w := draw32 u s
    memWrite addr t (lowBytes w.1.toNat t) w.2
  else .next s

/-- R122 `FillBytes(U, BASE, LEN)`. -/
def fillBytes (u : MixUnit) (base len : Nat) (s : State) : Result :=
  andThen (fillChunks u base (len / fillUnit) s) fun s =>
  andThen (fillTail u (base + fillUnit * (len / fillUnit)) (len % fillUnit) s) fun s =>
  .next (s.respond .ok 0#64)

/-- R126, R127: a fill checks that its unit is seeded, then its range, then fills. -/
def fillCommand (u : MixUnit) (base len : Word32) (s : State) : Result :=
  whenSeeded u s fun s =>
  whenInRange base len s fun s =>
  fillBytes u base.toNat len.toNat s

/-- R126 `M32.FILL`. -/
def execM32Fill (base len : Word32) (s : State) : Result := fillCommand .m32 base len s

/-- R127 `M64.FILL`. -/
def execM64Fill (base len : Word32) (s : State) : Result := fillCommand .m64 base len s

end Sys2Proof.Machine
end

