-- ==== Sys2Proof/Machine/Dispatch.lean ====
section
/-! DEFINITION. One arm per command of the RM3 core (spec/30_encoding.md R64), each one call of its meaning. -/

namespace Sys2Proof.Machine

/-- R64: the meaning of each command. -/
def exec (i : Instr) (s : State) : Host.Outcome State Fault Refusal :=
  match i with
  | .m32Seed b0 b1 b2 b3 => Sys2Proof.Machine.execM32Seed b0 b1 b2 b3 s
  | .m32Next32 => Sys2Proof.Machine.execM32Next32 s
  | .m32Next64 => Sys2Proof.Machine.execM32Next64 s
  | .m32Fill base len => Sys2Proof.Machine.execM32Fill base len s
  | .m64Seed b0 b1 b2 b3 b4 b5 b6 b7 => Sys2Proof.Machine.execM64Seed b0 b1 b2 b3 b4 b5 b6 b7 s
  | .m64Next32 => Sys2Proof.Machine.execM64Next32 s
  | .m64Next64 => Sys2Proof.Machine.execM64Next64 s
  | .m64Fill base len => Sys2Proof.Machine.execM64Fill base len s

end Sys2Proof.Machine
end

