-- ==== Sys2Proof/Machine/Perform.lean ====
section
/-! DEFINITION. What the block does with one host event (spec/70_reset_and_hazards.md R170): perform a command word
(decode it, refuse it or run it), take a reset (R160), take a reset that arrives during a command (R161). -/

namespace Sys2Proof.Machine

/-- R60, R142, R146: an illegal word is refused at decode, before any unit is consulted; a legal word runs. -/
def performWord (cw : CommandWord) (s : State) : Result :=
  match decode cw with
  | .ok i => exec i s
  | .error _ => .next (s.refuse .illegalCommand)

/-- The range of BUF a command word may write: empty for a word that is no fill. -/
def wordRange (cw : CommandWord) : Nat × Nat :=
  match decode cw with
  | .ok i => Instr.fillRange i
  | .error _ => (0, 0)

/-- R161: a reset that arrives while `cw` is being performed leaves the flags 0, gives no response, and leaves each byte
of the range the command writes either old or as the whole command would have left it. Which bytes were written is a
free choice, a new one for each such reset (log entry 12). -/
def interruptedBy (cw : CommandWord) (s : State) : Result :=
  andThen (performWord cw s) fun t =>
    let r := wordRange cw
    let m := Memory.mixture (Config.interruptedFillWrote s.freeIndex) s.buf t.buf r.1 r.2
    .next { (s.setBuf m).takeReset with freeIndex := s.freeIndex + 1 }

/-- R170: one host event, performed. -/
def performEvent (e : HostEvent) (s : State) : Result :=
  match e with
  | .command cw => performWord cw s
  | .reset => .next s.takeReset
  | .resetDuring cw => interruptedBy cw s

end Sys2Proof.Machine
end

