-- ==== Sys2Proof/Machine/Step.lean ====
section
/-! DEFINITION. One step of the RM3 core: the next event the host has presented is performed, whole (spec/00_scope.md
R4, spec/70_reset_and_hazards.md R165); with none presented the block holds its state (spec/60_exceptions.md R151). -/

namespace Sys2Proof.Machine

/-- R24, R165: events are performed in the order presented, each to completion. With nothing presented the block "simply
holds its four state elements" (R151; DEDUCED, log entry 5, safe). -/
def step (s : State) : Host.Outcome State Fault Refusal :=
  match s.pending with
  | [] => .next s
  | e :: rest => performEvent e (s.setPending rest)

/-- The state in which the next event is the command word whose bits are `w`: the host has presented it (log entries 3
and 17). -/
def State.withFetchWord (s : State) (nbits w : Nat) : State := s.present (commandWordOfBits nbits w)

end Sys2Proof.Machine
end

