-- ==== Sys2Proof/Machine/Assembler.lean ====
section
/-! DEFINITION. The assembler notation of spec/30_encoding.md: the grammar of a line (R72) and the command a line stands
for, the two pseudo-instructions included (R73). -/

namespace Sys2Proof.Machine

/-- Why a line is no command. -/
inductive AsmError where
  /-- R72: the line does not fit the grammar. -/
  | syntaxError
  /-- R72: "A number out of range is an assembly error, not a command." -/
  | outOfRange
deriving DecidableEq, Repr

/-- R73: the seed command of a SEEDW, from the bytes of its value; they are 4 or 8 by construction. -/
def seedOfBytes : List Byte → Except AsmError Instr
  | [b0, b1, b2, b3] => .ok (.m32Seed b0 b1 b2 b3)
  | [b0, b1, b2, b3, b4, b5, b6, b7] => .ok (.m64Seed b0 b1 b2 b3 b4 b5 b6 b7)
  | _ => .error .syntaxError

/-- A number as a byte; `AsmCommand.wellFormed` has checked its range. -/
def asByte (n : Nat) : Byte := BitVec.ofNat 8 n

/-- A number as an address or a length; `AsmCommand.wellFormed` has checked its range. -/
def asWord32 (n : Nat) : Word32 := BitVec.ofNat 32 n

/-- R72, R73: the command an assembler command stands for on a core of byte order `bo`, or an assembly error when a
number is out of range. -/
def assemble (bo : ByteOrder) (c : AsmCommand) : Except AsmError Instr :=
  if c.wellFormed then
    match c with
    | .m32Seed b0 b1 b2 b3 => .ok (.m32Seed (asByte b0) (asByte b1) (asByte b2) (asByte b3))
    | .m64Seed b0 b1 b2 b3 b4 b5 b6 b7 =>
      .ok (.m64Seed (asByte b0) (asByte b1) (asByte b2) (asByte b3) (asByte b4) (asByte b5) (asByte b6) (asByte b7))
    | .m32Next32 => .ok .m32Next32
    | .m32Next64 => .ok .m32Next64
    | .m64Next32 => .ok .m64Next32
    | .m64Next64 => .ok .m64Next64
    | .m32Fill base len => .ok (.m32Fill (asWord32 base) (asWord32 len))
    | .m64Fill base len => .ok (.m64Fill (asWord32 base) (asWord32 len))
    | .m32Seedw v => seedOfBytes (toBytes bo v 4)
    | .m64Seedw v => seedOfBytes (toBytes bo v 8)
  else .error .outOfRange

/-- R72: the tokens of a line. -/
inductive AsmToken where
  | comma
  /-- A run of the characters of names and numbers. -/
  | word (cs : List Char)
  /-- A character no token begins with. -/
  | stray (c : Char)
deriving DecidableEq, Repr

/-- The characters of names and numbers: letters, digits and the dot of a mnemonic. They are one class, so a mnemonic and
its first number need a blank between them (DESIGN CHOICE, log entry 15). -/
def isWordChar (c : Char) : Bool := c.isAlphanum || c == '.'

/-- White space between tokens: spaces and tabs (DESIGN CHOICE, log entry 15, safe). -/
def isBlank (c : Char) : Bool := c == ' ' || c == '\t'

/-- A token list with a character put in front: it joins a word that begins right behind it (`joins` says that it
does). -/
def consWord (c : Char) (joins : Bool) : List AsmToken → List AsmToken
  | .word cs :: ts => if joins then .word (c :: cs) :: ts else .word [c] :: .word cs :: ts
  | .comma :: ts => .word [c] :: .comma :: ts
  | .stray d :: ts => .word [c] :: .stray d :: ts
  | [] => [.word [c]]

/-- Whether the next character goes on a word. -/
def goesOn : List Char → Bool
  | [] => false
  | c :: _ => isWordChar c

/-- R72: the tokens of a line, up to its comment. DESIGN CHOICE (log entry 15), safe for the block: R72 is silent on white
space, and here a blank ends a word and nothing else divides a mnemonic from its first number, so a line such as
`M32.SEED1,2,3,4` begins with one word that is no mnemonic, and is a syntax error. -/
def tokens : List Char → List AsmToken
  | [] => []
  | c :: cs =>
    if c == ';' then []
    else if isBlank c then tokens cs
    else if c == ',' then .comma :: tokens cs
    else if isWordChar c then consWord c (goesOn cs) (tokens cs)
    else .stray c :: tokens cs

/-- The value of a digit, decimal or hexadecimal, below `radix`. -/
def digitValue (radix : Nat) (c : Char) : Option Nat :=
  let n := c.toNat
  let v := if 48 ≤ n && n ≤ 57 then n - 48
    else if 97 ≤ n && n ≤ 102 then n - 87
    else if 65 ≤ n && n ≤ 70 then n - 55
    else radix
  if v < radix then some v else none

/-- The number a run of digits denotes, with `acc` in front of it. -/
def digitsValue (radix : Nat) : Nat → List Char → Option Nat
  | acc, [] => some acc
  | acc, c :: cs =>
    match digitValue radix c with
    | some v => digitsValue radix (acc * radix + v) cs
    | none => none

/-- R72 `number`: decimal digits, or `0x` and hexadecimal digits, at least one digit. -/
def number : List Char → Option Nat
  | [] => none
  | ['0', 'x'] => none
  | '0' :: 'x' :: cs => digitsValue 16 0 cs
  | c :: cs => digitsValue 10 0 (c :: cs)

/-- R72: numbers separated by commas. -/
def numberList : List AsmToken → Option (List Nat)
  | [] => some []
  | [.word cs] => (number cs).map fun n => [n]
  | .word cs :: .comma :: .word ds :: ts =>
    match number cs, numberList (.word ds :: ts) with
    | some n, some ns => some (n :: ns)
    | _, _ => none
  | _ => none

/-- R72, R73: a mnemonic, case-sensitive as written, and its numbers. -/
def commandOf (name : List Char) (ns : List Nat) : Option AsmCommand :=
  if name = ['M', '3', '2', '.', 'S', 'E', 'E', 'D'] then
    match ns with
    | [b0, b1, b2, b3] => some (.m32Seed b0 b1 b2 b3)
    | _ => none
  else if name = ['M', '6', '4', '.', 'S', 'E', 'E', 'D'] then
    match ns with
    | [b0, b1, b2, b3, b4, b5, b6, b7] => some (.m64Seed b0 b1 b2 b3 b4 b5 b6 b7)
    | _ => none
  else if name = ['M', '3', '2', '.', 'N', 'E', 'X', 'T', '3', '2'] then
    if ns = [] then some .m32Next32 else none
  else if name = ['M', '3', '2', '.', 'N', 'E', 'X', 'T', '6', '4'] then
    if ns = [] then some .m32Next64 else none
  else if name = ['M', '6', '4', '.', 'N', 'E', 'X', 'T', '3', '2'] then
    if ns = [] then some .m64Next32 else none
  else if name = ['M', '6', '4', '.', 'N', 'E', 'X', 'T', '6', '4'] then
    if ns = [] then some .m64Next64 else none
  else if name = ['M', '3', '2', '.', 'F', 'I', 'L', 'L'] then
    match ns with
    | [base, len] => some (.m32Fill base len)
    | _ => none
  else if name = ['M', '6', '4', '.', 'F', 'I', 'L', 'L'] then
    match ns with
    | [base, len] => some (.m64Fill base len)
    | _ => none
  else if name = ['M', '3', '2', '.', 'S', 'E', 'E', 'D', 'W'] then
    match ns with
    | [v] => some (.m32Seedw v)
    | _ => none
  else if name = ['M', '6', '4', '.', 'S', 'E', 'E', 'D', 'W'] then
    match ns with
    | [v] => some (.m64Seedw v)
    | _ => none
  else none

/-- R72 `line`: nothing but a comment or blanks, or one command. -/
def parseLine (cs : List Char) : Except AsmError (Option AsmCommand) :=
  match tokens cs with
  | [] => .ok none
  | .word name :: ts =>
    match numberList ts with
    | some ns =>
      match commandOf name ns with
      | some c => .ok (some c)
      | none => .error .syntaxError
    | none => .error .syntaxError
  | _ => .error .syntaxError

/-- R72, R73: the command word a line assembles to on a core of byte order `bo`; none for a line without a command. -/
def assembleLine (bo : ByteOrder) (cs : List Char) : Except AsmError (Option CommandWord) :=
  match parseLine cs with
  | .error e => .error e
  | .ok none => .ok none
  | .ok (some c) =>
    match assemble bo c with
    | .ok i => .ok (some (encode i))
    | .error e => .error e

end Sys2Proof.Machine
end

