-- ==== Sys2Proof/Safety.lean ====
section
/-! DEFINITION. The terms the claims use: the invariant of the machine, the state a unit is in, the number of advances of a
command (spec/42_fill_bytes.md R125, spec/10_state.md R30), the byte a fill leaves at a position (R122 to R124), and
states that differ only where no command can see it (R32). -/

namespace Sys2Proof.Machine

/-- R70: "When `CODE != OK`, `DATA` is zero." -/
def Response.wf (r : Response) : Bool := decide (r.code = .ok) || decide (r.data = 0#64)

/-- The invariant of the machine: BUF is in its canonical form and lists only addresses of BUF (R40), and no refusal
carries data (R70). -/
def State.Inv (s : State) : Prop := Memory.wf s.buf = true ∧ ∀ r ∈ s.responses, r.wf = true

/-- R125: the advances of an accepted M32 fill of `len` bytes. -/
def fillAdvances32 (len : Nat) : Nat :=
  if len % 8 = 0 then 2 * (len / 8) else if len % 8 ≤ 3 then 2 * (len / 8) + 1 else 2 * (len / 8) + 2

/-- R125: the advances of an accepted M64 fill of `len` bytes. -/
def fillAdvances64 (len : Nat) : Nat := if len % 8 = 0 then len / 8 else len / 8 + 1

/-- R10, R124: the byte at position `j` of the `n`-byte value that is the low-order `n` bytes of `w`:
`w[8j+7 : 8j]` when the order is little, `w[8(n-1-j)+7 : 8(n-1-j)]` when it is big. -/
def byteOfWord (bo : ByteOrder) (w : Word64) (n j : Nat) : Byte :=
  match bo with
  | .little => w.extractLsb' (8 * j) 8
  | .big => w.extractLsb' (8 * (n - 1 - j)) 8

/-- R122: the bytes of the chunk or tail that position `i` of a fill of `len` bytes lies in. -/
def chunkBytes (len i : Nat) : Nat := if i / 8 < len / 8 then 8 else len % 8

/-- R120, R122: the `c`-th 64-bit draw of M32 (from 0) from the state `x`: two advances, the first in the low half. -/
def chunkWord32 (x : Word32) (c : Nat) : Word64 := mix32^[2 * c + 2] x ++ mix32^[2 * c + 1] x

/-- R120, R122: the `c`-th 64-bit draw of M64 (from 0) from the state `x`. -/
def chunkWord64 (x : Word64) (c : Nat) : Word64 := mix64^[c + 1] x

/-- R122 to R124: the byte at position `i` of an M32 fill of `len` bytes from the state `x`. A tail of 1 to 3 bytes comes
from one 32-bit draw, which is the low half of what a 64-bit draw would be. -/
def fillByte32 (bo : ByteOrder) (x : Word32) (len i : Nat) : Byte :=
  byteOfWord bo (chunkWord32 x (i / 8)) (chunkBytes len i) (i % 8)

/-- R122 to R124: the byte at position `i` of an M64 fill of `len` bytes from the state `x`. -/
def fillByte64 (bo : ByteOrder) (x : Word64) (len i : Nat) : Byte :=
  byteOfWord bo (chunkWord64 x (i / 8)) (chunkBytes len i) (i % 8)

/-- R30: the advances of M32 that a command makes, given whether M32 is seeded: none when it is refused. -/
def advancesOf32 (seeded : Bool) : Instr → Nat
  | .m32Seed _ _ _ _ => 0
  | .m32Next32 => if seeded then 1 else 0
  | .m32Next64 => if seeded then 2 else 0
  | .m32Fill base len => if seeded && rangeOk base len then fillAdvances32 len.toNat else 0
  | .m64Seed _ _ _ _ _ _ _ _ => 0
  | .m64Next32 => 0
  | .m64Next64 => 0
  | .m64Fill _ _ => 0

/-- R30: the advances of M64 that a command makes, given whether M64 is seeded: none when it is refused. -/
def advancesOf64 (seeded : Bool) : Instr → Nat
  | .m32Seed _ _ _ _ => 0
  | .m32Next32 => 0
  | .m32Next64 => 0
  | .m32Fill _ _ => 0
  | .m64Seed _ _ _ _ _ _ _ _ => 0
  | .m64Next32 => if seeded then 1 else 0
  | .m64Next64 => if seeded then 1 else 0
  | .m64Fill base len => if seeded && rangeOk base len then fillAdvances64 len.toNat else 0

/-- Whether a command is `M32.SEED`. -/
def isSeed32 : Instr → Bool
  | .m32Seed _ _ _ _ => true
  | .m32Next32 => false
  | .m32Next64 => false
  | .m32Fill _ _ => false
  | .m64Seed _ _ _ _ _ _ _ _ => false
  | .m64Next32 => false
  | .m64Next64 => false
  | .m64Fill _ _ => false

/-- Whether a command is `M64.SEED`. -/
def isSeed64 : Instr → Bool
  | .m32Seed _ _ _ _ => false
  | .m32Next32 => false
  | .m32Next64 => false
  | .m32Fill _ _ => false
  | .m64Seed _ _ _ _ _ _ _ _ => true
  | .m64Next32 => false
  | .m64Next64 => false
  | .m64Fill _ _ => false

/-- The fill command of a unit. -/
def fillOf : MixUnit → Word32 → Word32 → Instr
  | .m32, base, len => .m32Fill base len
  | .m64, base, len => .m64Fill base len

/-- R31: two states whose unit `u` is in the same condition. -/
def State.SameUnit (u : MixUnit) (s t : State) : Prop :=
  match u with
  | .m32 => s.s32 = t.s32 ∧ s.v32 = t.v32
  | .m64 => s.s64 = t.s64 ∧ s.v64 = t.v64

/-- The machine run for a number of steps, stopping at the first fault or refusal. -/
def runSteps : Nat → State → Result
  | 0, s => .next s
  | n + 1, s => andThen (step s) (runSteps n)

/-- A program (R24, R169) as host events: the words of its commands, in order. -/
def program (is : List Instr) : List HostEvent := is.map fun i => .command (encode i)

/-- R32: two states that agree on everything but the state register of a unit whose flag is 0. -/
def State.AgreeWhereSeeded (s t : State) : Prop :=
  s.v32 = t.v32 ∧ s.v64 = t.v64 ∧ (s.v32 = true → s.s32 = t.s32) ∧ (s.v64 = true → s.s64 = t.s64) ∧
  s.buf = t.buf ∧ s.byteOrder = t.byteOrder ∧ s.pending = t.pending ∧ s.responses = t.responses ∧
  s.freeIndex = t.freeIndex

end Sys2Proof.Machine
end

