-- ==== Sys2Proof/Certificates/Slice0/Obligations.lean ====
section
/-! DEFINITION. The statements about the RM3 core. Each docstring names the rule of spec/ it formalises. Where a statement
speaks of `pending` or `responses`, these are the model's two ends of the command port (DESIGN CHOICE, log entries 3
and 4): a command presented, and a response given. -/

open Sys2Proof Sys2Proof.Machine

/-! ### Encoding (spec/30_encoding.md) -/

/-- Words of spec/95_test_vectors.md V7 and the commands they stand for, one and more of each format. -/
def Obligations.SpecWordsDecodeToTheirCommands : Prop :=
  decode 0x00000000000000000A#72 = .ok (.m32Seed 10#8 0#8 0#8 0#8) ∧
  decode 0x000000000078563412#72 = .ok (.m32Seed 0x12#8 0x34#8 0x56#8 0x78#8) ∧
  decode 0x010000000000000000#72 = .ok .m32Next32 ∧
  decode 0x020000000000000000#72 = .ok .m32Next64 ∧
  decode 0x030000000700001000#72 = .ok (.m32Fill 0x1000#32 7#32) ∧
  decode 0x04EFCDAB8967452301#72 =
    .ok (.m64Seed 0x01#8 0x23#8 0x45#8 0x67#8 0x89#8 0xab#8 0xcd#8 0xef#8) ∧
  decode 0x050000000000000000#72 = .ok .m64Next32 ∧
  decode 0x060000000000000000#72 = .ok .m64Next64 ∧
  decode 0x070000000900002000#72 = .ok (.m64Fill 0x2000#32 9#32)

/-- The second half of R69, an inference of the spec ("derived: from rule R63, rule R66 and rule R68"): decoding the word
of a command gives the command back, for every command and every operand. -/
def Obligations.DecodeOfEncodeIsTheCommand : Prop :=
  ∀ i : Instr, decode (encode i) = .ok i

/-- The first half of R69, an inference of the spec: a legal word is the word of the command it decodes to, so decoding is
injective on legal words. -/
def Obligations.EncodeOfDecodeIsTheWord : Prop :=
  ∀ (cw : CommandWord) (i : Instr), decode cw = .ok i → encode i = cw

/-- R66: a word is refused with `IllegalCommand`, without any other effect, exactly when (a), (b) or (c) holds; these are
the words that match no row of R64; every other word is a command, and with OP 0x03, 0x04, 0x07 every word is one. -/
def Obligations.IllegalWordsAreExactlyThese : Prop :=
  ∀ (cw : CommandWord) (s : State),
    let op := cw.extractLsb' 64 8
    let illegal := cw.extractLsb' 67 5 ≠ 0#5 ∨
      ((op = 0x01#8 ∨ op = 0x02#8 ∨ op = 0x05#8 ∨ op = 0x06#8) ∧ cw.extractLsb' 0 64 ≠ 0#64) ∨
      (op = 0x00#8 ∧ cw.extractLsb' 32 32 ≠ 0#32)
    (illegal → performWord cw s = .next { s with responses := s.responses ++ [⟨.illegalCommand, 0#64⟩] }) ∧
    (illegal ↔ ∀ row ∈ opcodeMap, cw &&& row.mask ≠ row.value) ∧
    (¬illegal → ∃ i, decode cw = .ok i ∧ performWord cw s = exec i s) ∧
    (op = 0x03#8 ∨ op = 0x04#8 ∨ op = 0x07#8 → ¬illegal)

/-- R64: a word selects a row of the opcode map (`CW & mask = match`) exactly when it decodes to the row's command; no
word selects two rows; a word with OP from 0x08 to 0xFF is no command. -/
def Obligations.OpcodeMapRowsSelectTheirCommands : Prop :=
  ∀ cw : CommandWord,
    (∀ row ∈ opcodeMap, (cw &&& row.mask = row.value ↔ ∃ i, decode cw = .ok i ∧ i.mnemonic = row.mnemonic)) ∧
    (∀ row ∈ opcodeMap, ∀ row' ∈ opcodeMap, cw &&& row.mask = row.value → cw &&& row'.mask = row'.value → row = row') ∧
    (8 ≤ (cw.extractLsb' 64 8).toNat → decode cw = .error .reservedOpcode)

/-! ### The step (spec/10_state.md R24, spec/70_reset_and_hazards.md R165) -/

/-- A step performs the first command presented: a legal word runs as its command, an illegal one is refused. The step
adds nothing but taking the word from the front of what is pending (the model's port, log entry 3). -/
def Obligations.StepPerformsTheCommandPresented : Prop :=
  ∀ (s : State) (cw : CommandWord) (rest : List HostEvent), s.pending = .command cw :: rest →
    (∀ i, decode cw = .ok i → step s = exec i { s with pending := rest }) ∧
    (∀ e, decode cw = .error e → step s =
      .next { s with pending := rest, responses := s.responses ++ [⟨.illegalCommand, 0#64⟩] })

/-- A command placed where the next step looks for it runs as that command, for every command and every operand (the model's
port, log entries 3 and 17). -/
def Obligations.StepRunsThePlacedCommand : Prop :=
  ∀ (i : Instr) (s : State), step (s.withFetchWord 72 (encode i).toNat) = exec i s

/-- R151, "between commands it simply holds its four state elements": with nothing presented a step changes nothing
(the model's reading, log entry 5). -/
def Obligations.IdleBlockHoldsItsState : Prop :=
  ∀ s : State, s.pending = [] → step s = .next s

/-- Every step goes on: no command, whatever its operands and whatever the state, stops the machine (R141, R147, R167), so
MemWrite's precondition holds wherever a fill uses it (R42). -/
def Obligations.EveryStepGoesOn : Prop :=
  ∀ s : State, ∃ t, step s = .next t

/-- Every step keeps the invariant: BUF stays in its canonical form inside its address space (R40), and no refusal
carries data (R70). The canonical form is the model's way to hold BUF (log entry 6). -/
def Obligations.EveryStepKeepsTheInvariant : Prop :=
  ∀ s t : State, s.Inv → step s = .next t → t.Inv

/-- The invariant holds at reset, whatever the byte order. -/
def Obligations.ResetMeetsTheInvariant : Prop :=
  State.reset.Inv ∧ ∀ bo, (State.resetWith bo).Inv

/-- BYTE_ORDER is fixed for the life of a core: no command and no reset changes it (R44). -/
def Obligations.ByteOrderIsFixed : Prop :=
  ∀ s t : State, step s = .next t → t.byteOrder = s.byteOrder

/-- R70, "Every command produces exactly one response record", and R160, R161, R170: a reset produces none (that a reset is
an event among those presented is the model's reading, log entry 11). `t.pending = rest` says that a step takes its event
and nothing more from what is presented: for a command this is R165, for the two reset events it is the model's choice, of
which the spec says nothing (DESIGN CHOICE, unsafe, log entry 3). -/
def Obligations.EveryCommandIsAnsweredOnce : Prop :=
  ∀ (s t : State) (e : HostEvent) (rest : List HostEvent), s.pending = e :: rest → step s = .next t →
    t.pending = rest ∧
    match e with
    | .command _ => ∃ r, t.responses = s.responses ++ [r] ∧ (r.code ≠ .ok → r.data = 0#64)
    | .reset => t.responses = s.responses
    | .resetDuring _ => t.responses = s.responses

/-- R169: a program of `n` command words, legal or not, has run after `n` steps, and its outcome holds one response per
command, in order, behind those given before: after `k` steps exactly the first `k` have been given, and the response of
the word at position `k` is the one that performing this word gives in the state the words before it left. That the words
wait in `pending` is the model's port (log entry 3). -/
def Obligations.ProgramGetsItsResponsesInOrder : Prop :=
  ∀ (s : State) (cws : List CommandWord), s.pending = cws.map .command →
    ∃ (t : State) (rs : List Response), runSteps cws.length s = .next t ∧ t.pending = [] ∧ rs.length = cws.length ∧
      t.responses = s.responses ++ rs ∧
      (∀ k, k ≤ cws.length → ∃ u : State, runSteps k s = .next u ∧ u.pending = (cws.drop k).map .command ∧
        u.responses = s.responses ++ rs.take k) ∧
      (∀ (k : Nat) (cw : CommandWord), cws[k]? = some cw → ∃ (u v : State) (r : Response),
        runSteps k s = .next u ∧ performWord cw { u with pending := (cws.drop (k + 1)).map .command } = .next v ∧
        runSteps (k + 1) s = .next v ∧ rs[k]? = some r ∧ v.responses = u.responses ++ [r])

/-! ### Reset (spec/10_state.md R32, spec/70_reset_and_hazards.md R160, R161) -/

/-- After reset both units are unseeded (R32), and the first draw or fill of either unit is refused (R143). -/
def Obligations.ResetStateIsUnseeded : Prop :=
  State.reset.v32 = false ∧ State.reset.v64 = false ∧
  ∀ i : Instr, isSeed32 i = false → isSeed64 i = false →
    exec i State.reset = .next { State.reset with responses := [⟨.unseeded, 0#64⟩] }

/-- A reset between commands clears both flags and leaves BUF (R160) and the byte order (R44) as they are. That it gives no
response is the model's reading of R170, where the host gets nothing back (DEDUCED, log entry 11). `t.pending = rest`, that
it leaves the queue as it is, is the model's choice, of which the spec says nothing (DESIGN CHOICE, unsafe, log entry 3).
What `S32` and `S64` hold then is not stated: the spec gives no value (log entry 2). -/
def Obligations.ResetClearsTheFlagsAndKeepsBuf : Prop :=
  ∀ (s : State) (rest : List HostEvent), s.pending = .reset :: rest →
    ∃ t, step s = .next t ∧ t.v32 = false ∧ t.v64 = false ∧ t.buf = s.buf ∧ t.byteOrder = s.byteOrder ∧
      t.responses = s.responses ∧ t.pending = rest

/-- What R161 says of a reset that arrives during a command: it leaves the flags 0 and gives no response; each byte of BUF is
old or as the whole command would have left it (a free choice, log entry 12); and no byte outside the command's range is
written. The clause `t.pending = rest`, that the queue is kept, is not R161's: it is the model's choice (DESIGN CHOICE,
unsafe, log entry 3). -/
def Obligations.ResetDuringACommand : Prop :=
  ∀ (s : State) (cw : CommandWord) (rest : List HostEvent), s.pending = .resetDuring cw :: rest →
    ∃ t u, step s = .next t ∧ performWord cw { s with pending := rest } = .next u ∧
      t.v32 = false ∧ t.v64 = false ∧ t.responses = s.responses ∧ t.pending = rest ∧
      (∀ a, Memory.read t.buf a = Memory.read s.buf a ∨ Memory.read t.buf a = Memory.read u.buf a) ∧
      (∀ a, a < (wordRange cw).1 ∨ (wordRange cw).1 + (wordRange cw).2 ≤ a →
        Memory.read t.buf a = Memory.read s.buf a)

/-- R32, "no command's result ever depends on the unspecified reset content of a state register": two runs from states
that differ only in the register of an unseeded unit give the same responses and the same BUF, and differ nowhere else,
after any number of steps. -/
def Obligations.UnseededRegistersNeverShow : Prop :=
  ∀ (n : Nat) (s t : State), s.AgreeWhereSeeded t →
    ∃ s' t', runSteps n s = .next s' ∧ runSteps n t = .next t' ∧ State.AgreeWhereSeeded s' t'

/-- R25: reset clears both flags, an accepted seed command sets its unit's, and every other command, refused or not,
leaves them as they are. -/
def Obligations.FlagsFollowTheLifeCycle : Prop :=
  ∀ (s t : State) (e : HostEvent) (rest : List HostEvent), s.pending = e :: rest → step s = .next t →
    match e with
    | .reset => t.v32 = false ∧ t.v64 = false
    | .resetDuring _ => t.v32 = false ∧ t.v64 = false
    | .command cw =>
      match decode cw with
      | .ok i => t.v32 = (s.v32 || isSeed32 i) ∧ t.v64 = (s.v64 || isSeed64 i)
      | .error _ => t.v32 = s.v32 ∧ t.v64 = s.v64

/-! ### Refusals (spec/60_exceptions.md) -/

/-- R140: a refused command changes no state element and no byte of BUF; its response is (code, 0). -/
def Obligations.RefusalsChangeNothing : Prop :=
  ∀ (cw : CommandWord) (s t : State) (c : Code) (d : Word64), performWord cw s = .next t →
    t.responses = s.responses ++ [⟨c, d⟩] → c ≠ .ok →
    t = { s with responses := s.responses ++ [⟨c, 0#64⟩] }

/-- R143: a draw or fill on a unit not seeded since reset is refused with `Unseeded`; on a seeded unit it never is,
whatever the flag of the other unit. -/
def Obligations.UnseededUnitsRefuseDrawsAndFills : Prop :=
  ∀ (i : Instr) (s : State), isSeed32 i = false → isSeed64 i = false →
    (s.seeded i.unit = false → exec i s = .next { s with responses := s.responses ++ [⟨.unseeded, 0#64⟩] }) ∧
    (s.seeded i.unit = true → ∃ t c d, exec i s = .next t ∧ t.responses = s.responses ++ [⟨c, d⟩] ∧ c ≠ .unseeded)

/-- R121, R144: a fill on a seeded unit is refused with `BufferRange` exactly when BASE + LEN, over the integers, is over
2^32: then nothing is drawn and nothing written; with LEN = 0 it passes for every BASE. -/
def Obligations.FillsOutsideBufAreRefused : Prop :=
  ∀ (u : MixUnit) (base len : Word32) (s : State), s.seeded u = true →
    (2 ^ 32 < base.toNat + len.toNat →
      exec (fillOf u base len) s = .next { s with responses := s.responses ++ [⟨.bufferRange, 0#64⟩] }) ∧
    (base.toNat + len.toNat ≤ 2 ^ 32 →
      ∃ t, exec (fillOf u base len) s = .next t ∧ t.responses = s.responses ++ [⟨.ok, 0#64⟩]) ∧
    (len = 0#32 → ∃ t, exec (fillOf u base len) s = .next t ∧ t.responses = s.responses ++ [⟨.ok, 0#64⟩])

/-- R146: an illegal word is `IllegalCommand` whatever the flags; a draw or fill on an unseeded unit is `Unseeded`
whatever its range, zero length included; only then is a fill's range looked at. -/
def Obligations.RefusalsHaveThisPriority : Prop :=
  ∀ (cw : CommandWord) (s : State),
    (CommandWord.illegal cw = true →
      performWord cw s = .next { s with responses := s.responses ++ [⟨.illegalCommand, 0#64⟩] }) ∧
    (∀ i, decode cw = .ok i → isSeed32 i = false → isSeed64 i = false → s.seeded i.unit = false →
      performWord cw s = .next { s with responses := s.responses ++ [⟨.unseeded, 0#64⟩] }) ∧
    (∀ u base len, decode cw = .ok (fillOf u base len) → s.seeded u = true → 2 ^ 32 < base.toNat + len.toNat →
      performWord cw s = .next { s with responses := s.responses ++ [⟨.bufferRange, 0#64⟩] })

/-- R141: a seed command always completes with OK, and so does every command on a seeded unit, a fill when its range lies
in BUF: no data value causes a refusal. -/
def Obligations.AcceptedCommandsCannotFail : Prop :=
  ∀ (i : Instr) (s : State),
    (isSeed32 i = true ∨ isSeed64 i = true ∨
      (s.seeded i.unit = true ∧ (Instr.fillRange i).1 + (Instr.fillRange i).2 ≤ 2 ^ 32)) →
    ∃ t d, exec i s = .next t ∧ t.responses = s.responses ++ [⟨.ok, d⟩]

/-- R70, R71: the response record has CODE in bits 65:64 (0 OK, 1 IllegalCommand, 2 Unseeded, 3 BufferRange) and DATA in
bits 63:0. -/
def Obligations.ResponseRecordLayout : Prop :=
  (∀ r : Response, r.bits.extractLsb' 64 2 = r.code.bits ∧ r.bits.extractLsb' 0 64 = r.data) ∧
  Code.bits .ok = 0#2 ∧ Code.bits .illegalCommand = 1#2 ∧ Code.bits .unseeded = 2#2 ∧ Code.bits .bufferRange = 3#2

/-! ### Mixer32 (spec/40_mixer32.md) -/

/-- R81: the three stages of `mix32`, with the constants of R80, and the worked example with its values between the
stages. -/
def Obligations.Mix32IsItsThreeStages : Prop :=
  (∀ s : Word32,
    let m1 := s * 0xcc9e2d51#32
    let r := (m1 <<< 15) ||| (m1 >>> 17)
    mix32 s = r * 0x1b873593#32) ∧
  0x0000000a#32 * mix32C1 = 0xfe2dc52a#32 ∧ rotl32 0xfe2dc52a#32 mix32Rot = 0xe2957f16#32 ∧
  0xe2957f16#32 * mix32C2 = 0x65c187a2#32 ∧ mix32 0x0000000a#32 = 0x65c187a2#32

/-- R83, R84: `M32.SEED` makes the seed, read in the native byte order, the state, sets `V32`, answers (OK, 0) and changes
nothing else, whatever the state before; its word has OP 0x00. -/
def Obligations.M32SeedSetsTheState : Prop :=
  ∀ (b0 b1 b2 b3 : Byte) (s : State),
    exec (.m32Seed b0 b1 b2 b3) s = .next { s with
      s32 := match s.byteOrder with
        | .little => b3 ++ b2 ++ b1 ++ b0
        | .big => b0 ++ b1 ++ b2 ++ b3
      v32 := true
      responses := s.responses ++ [⟨.ok, 0#64⟩] } ∧
    (encode (.m32Seed b0 b1 b2 b3)).extractLsb' 64 8 = 0x00#8 ∧
    performWord (encode (.m32Seed b0 b1 b2 b3)) s = exec (.m32Seed b0 b1 b2 b3) s

/-- R85: `M32.NEXT32` on a seeded unit replaces `S32` by `mix32(S32)`, answers with the new `S32` zero-extended and changes
nothing else; on an unseeded unit it is refused; its word has OP 0x01. -/
def Obligations.M32Next32DrawsOneWord : Prop :=
  ∀ s : State,
    (s.v32 = true → exec .m32Next32 s = .next { s with
      s32 := mix32 s.s32
      responses := s.responses ++ [⟨.ok, (mix32 s.s32).setWidth 64⟩] }) ∧
    (s.v32 = false → exec .m32Next32 s = .next { s with responses := s.responses ++ [⟨.unseeded, 0#64⟩] }) ∧
    performWord 0x010000000000000000#72 s = exec .m32Next32 s

/-- R86: `M32.NEXT64` on a seeded unit makes two advances and answers with the first in the low half and the second in the
high half; on an unseeded unit it is refused; it leaves `S32` and its data as two `M32.NEXT32` do. -/
def Obligations.M32Next64DrawsTwoWords : Prop :=
  ∀ s : State,
    (s.v32 = true → exec .m32Next64 s = .next { s with
      s32 := mix32 (mix32 s.s32)
      responses := s.responses ++ [⟨.ok, mix32 (mix32 s.s32) ++ mix32 s.s32⟩] }) ∧
    (s.v32 = false → exec .m32Next64 s = .next { s with responses := s.responses ++ [⟨.unseeded, 0#64⟩] }) ∧
    (s.v32 = true → ∃ (a b c : State) (lo hi : Word64), exec .m32Next32 s = .next a ∧ exec .m32Next32 a = .next b ∧
      exec .m32Next64 s = .next c ∧ a.responses = s.responses ++ [⟨.ok, lo⟩] ∧
      b.responses = s.responses ++ [⟨.ok, lo⟩, ⟨.ok, hi⟩] ∧
      c = { b with responses := s.responses ++ [⟨.ok, lo ||| (hi <<< 32)⟩] })

/-- R88, an inference of the spec: `mix32` is a permutation of the 32-bit values, so a state that is not zero never becomes
zero and two states never merge. -/
def Obligations.Mix32IsAPermutation : Prop :=
  Function.Bijective mix32 ∧ ∀ x : Word32, x ≠ 0#32 → mix32 x ≠ 0#32

/-- R87: zero is a fixed point of `mix32`: a unit with `S32 = 0` answers 0 to every draw and writes zero bytes in every
fill, stays so for ever and is never refused or altered; only the all-zero seed gives `S32 = 0`. -/
def Obligations.M32ZeroStateGivesZeros : Prop :=
  mix32 0#32 = 0#32 ∧
  (∀ s : State, s.v32 = true → s.s32 = 0#32 →
    exec .m32Next32 s = .next { s with responses := s.responses ++ [⟨.ok, 0#64⟩] } ∧
    exec .m32Next64 s = .next { s with responses := s.responses ++ [⟨.ok, 0#64⟩] } ∧
    ∀ base len : Word32, base.toNat + len.toNat ≤ 2 ^ 32 →
      ∃ m, exec (.m32Fill base len) s = .next { s with buf := m, responses := s.responses ++ [⟨.ok, 0#64⟩] } ∧
        ∀ i, i < len.toNat → Memory.read m (base.toNat + i) = some 0#8) ∧
  (∀ (b0 b1 b2 b3 : Byte) (s : State), ∃ t, exec (.m32Seed b0 b1 b2 b3) s = .next t ∧
    (t.s32 = 0#32 ↔ b0 = 0#8 ∧ b1 = 0#8 ∧ b2 = 0#8 ∧ b3 = 0#8))

/-! ### Mixer64 (spec/41_mixer64.md) -/

/-- R101: the five stages of `mix64`, with the constants of R100 and its logical shifts, what a xor-shift stage leaves of
its operand, and the worked example with its values between the stages. -/
def Obligations.Mix64IsItsFiveStages : Prop :=
  (∀ s : Word64,
    let k1 := s ^^^ (s >>> 33)
    let k2 := k1 * 0xff51afd7ed558ccd#64
    let k3 := k2 ^^^ (k2 >>> 33)
    let k4 := k3 * 0xc4ceb9fe1a85ec53#64
    mix64 s = k4 ^^^ (k4 >>> 33)) ∧
  (∀ k : Word64, (xorShift k).extractLsb' 31 33 = k.extractLsb' 31 33 ∧
    (xorShift k).extractLsb' 0 31 = k.extractLsb' 0 31 ^^^ k.extractLsb' 33 31) ∧
  xorShift 0x000000000000000a#64 = 0x000000000000000a#64 ∧
  0x000000000000000a#64 * mix64K1 = 0xf930de6f45578002#64 ∧
  xorShift 0xf930de6f45578002#64 = 0xf930de6f39cfef35#64 ∧
  0xf930de6f39cfef35#64 * mix64K2 = 0x6461724417786a2f#64 ∧
  xorShift 0x6461724417786a2f#64 = 0x646172442548d30d#64 ∧
  mix64 0x000000000000000a#64 = 0x646172442548d30d#64

/-- R103, R104: `M64.SEED` makes the seed, read in the native byte order, the state, sets `V64`, answers (OK, 0) and changes
nothing else, whatever the state before; its word has OP 0x04. -/
def Obligations.M64SeedSetsTheState : Prop :=
  ∀ (b0 b1 b2 b3 b4 b5 b6 b7 : Byte) (s : State),
    exec (.m64Seed b0 b1 b2 b3 b4 b5 b6 b7) s = .next { s with
      s64 := match s.byteOrder with
        | .little => b7 ++ b6 ++ b5 ++ b4 ++ b3 ++ b2 ++ b1 ++ b0
        | .big => b0 ++ b1 ++ b2 ++ b3 ++ b4 ++ b5 ++ b6 ++ b7
      v64 := true
      responses := s.responses ++ [⟨.ok, 0#64⟩] } ∧
    (encode (.m64Seed b0 b1 b2 b3 b4 b5 b6 b7)).extractLsb' 64 8 = 0x04#8 ∧
    performWord (encode (.m64Seed b0 b1 b2 b3 b4 b5 b6 b7)) s = exec (.m64Seed b0 b1 b2 b3 b4 b5 b6 b7) s

/-- R105: `M64.NEXT64` on a seeded unit replaces `S64` by `mix64(S64)`, answers with the new `S64` and changes nothing else;
on an unseeded unit it is refused; its word has OP 0x06. -/
def Obligations.M64Next64DrawsOneWord : Prop :=
  ∀ s : State,
    (s.v64 = true → exec .m64Next64 s = .next { s with
      s64 := mix64 s.s64
      responses := s.responses ++ [⟨.ok, mix64 s.s64⟩] }) ∧
    (s.v64 = false → exec .m64Next64 s = .next { s with responses := s.responses ++ [⟨.unseeded, 0#64⟩] }) ∧
    performWord 0x060000000000000000#72 s = exec .m64Next64 s

/-- R106: `M64.NEXT32` on a seeded unit makes one whole 64-bit transition, keeps all of it in `S64`, answers with its low
half zero-extended and changes nothing else; on an unseeded unit it is refused; its word has OP 0x05. -/
def Obligations.M64Next32TruncatesOneWord : Prop :=
  ∀ s : State,
    (s.v64 = true → exec .m64Next32 s = .next { s with
      s64 := mix64 s.s64
      responses := s.responses ++ [⟨.ok, ((mix64 s.s64).extractLsb' 0 32).setWidth 64⟩] }) ∧
    (s.v64 = false → exec .m64Next32 s = .next { s with responses := s.responses ++ [⟨.unseeded, 0#64⟩] }) ∧
    performWord 0x050000000000000000#72 s = exec .m64Next32 s

/-- R111, an inference of the spec: from one state `M64.NEXT32` answers the low half of what `M64.NEXT64` answers, and both
leave the same `S64`. -/
def Obligations.M64Next32IsNext64Truncated : Prop :=
  ∀ s : State, s.v64 = true → ∃ (t u : State) (d : Word64), exec .m64Next64 s = .next t ∧ exec .m64Next32 s = .next u ∧
    t.responses = s.responses ++ [⟨.ok, d⟩] ∧ u = { t with responses := s.responses ++ [⟨.ok, d &&& 0xffffffff#64⟩] }

/-- R108, an inference of the spec: `mix64` is a permutation of the 64-bit values, so a state that is not zero never becomes
zero and two states never merge. -/
def Obligations.Mix64IsAPermutation : Prop :=
  Function.Bijective mix64 ∧ ∀ x : Word64, x ≠ 0#64 → mix64 x ≠ 0#64

/-- Zero is a fixed point of `mix64` and a unit with `S64 = 0` answers 0 to every draw for ever, its state never altered
(R107, in part an inference of the spec). That a fill of such a unit is accepted when its range lies in BUF and writes
zero bytes is derived from the fill's rules (R121 to R124, R127), not from R107, which speaks of draws. -/
def Obligations.M64ZeroStateGivesZeros : Prop :=
  mix64 0#64 = 0#64 ∧
  (∀ s : State, s.v64 = true → s.s64 = 0#64 →
    exec .m64Next32 s = .next { s with responses := s.responses ++ [⟨.ok, 0#64⟩] } ∧
    exec .m64Next64 s = .next { s with responses := s.responses ++ [⟨.ok, 0#64⟩] } ∧
    ∀ base len : Word32, base.toNat + len.toNat ≤ 2 ^ 32 →
      ∃ m, exec (.m64Fill base len) s = .next { s with buf := m, responses := s.responses ++ [⟨.ok, 0#64⟩] } ∧
        ∀ i, i < len.toNat → Memory.read m (base.toNat + i) = some 0#8)

/-! ### Fills (spec/42_fill_bytes.md) -/

/-- `M32.FILL` on a seeded unit with its range in BUF (R126, R122 to R125, R43): position `i` of the range gets its byte of
the stream (`fillByte32`, the closed form the spec infers in R129), every other address keeps what it had, `S32` is
advanced as R125 infers, the answer is (OK, 0), and nothing else changes. -/
def Obligations.M32FillWritesItsRange : Prop :=
  ∀ (base len : Word32) (s : State), s.v32 = true → base.toNat + len.toNat ≤ 2 ^ 32 →
    ∃ m, exec (.m32Fill base len) s = .next { s with
        s32 := mix32^[fillAdvances32 len.toNat] s.s32
        buf := m
        responses := s.responses ++ [⟨.ok, 0#64⟩] } ∧
      (∀ i, i < len.toNat →
        Memory.read m (base.toNat + i) = some (fillByte32 s.byteOrder s.s32 len.toNat i)) ∧
      (∀ a, a < base.toNat ∨ base.toNat + len.toNat ≤ a → Memory.read m a = Memory.read s.buf a)

/-- `M64.FILL` on a seeded unit with its range in BUF (R127, R122 to R125, R43): position `i` of the range gets its byte of
the stream (`fillByte64`), every other address keeps what it had, `S64` is advanced as R125 infers, the answer is (OK, 0),
and nothing else changes. -/
def Obligations.M64FillWritesItsRange : Prop :=
  ∀ (base len : Word32) (s : State), s.v64 = true → base.toNat + len.toNat ≤ 2 ^ 32 →
    ∃ m, exec (.m64Fill base len) s = .next { s with
        s64 := mix64^[fillAdvances64 len.toNat] s.s64
        buf := m
        responses := s.responses ++ [⟨.ok, 0#64⟩] } ∧
      (∀ i, i < len.toNat →
        Memory.read m (base.toNat + i) = some (fillByte64 s.byteOrder s.s64 len.toNat i)) ∧
      (∀ a, a < base.toNat ∨ base.toNat + len.toNat ≤ a → Memory.read m a = Memory.read s.buf a)

/-- R128: a fill of length 0 on a seeded unit makes no draw, writes no byte and answers (OK, 0); on an unseeded unit it is
refused with `Unseeded`. -/
def Obligations.ZeroLengthFillIsANoOp : Prop :=
  ∀ (u : MixUnit) (base : Word32) (s : State),
    (s.seeded u = true →
      exec (fillOf u base 0#32) s = .next { s with responses := s.responses ++ [⟨.ok, 0#64⟩] }) ∧
    (s.seeded u = false →
      exec (fillOf u base 0#32) s = .next { s with responses := s.responses ++ [⟨.unseeded, 0#64⟩] })

/-- R130, an inference of the spec: a fill of N1 bytes followed by a fill of N2 bytes right behind it leaves what one fill of
N1 + N2 bytes leaves, one more response apart, when N1 is a multiple of 8. -/
def Obligations.FillsConcatenateAtWholeChunks : Prop :=
  ∀ (u : MixUnit) (base n1 n2 : Word32) (s : State), s.seeded u = true → n1.toNat % 8 = 0 →
    n1.toNat + n2.toNat < 2 ^ 32 → base.toNat + n1.toNat + n2.toNat ≤ 2 ^ 32 →
    ∃ a b c, exec (fillOf u base n1) s = .next a ∧ exec (fillOf u (base + n1) n2) a = .next b ∧
      exec (fillOf u base (n1 + n2)) s = .next c ∧ b = { c with responses := c.responses ++ [⟨.ok, 0#64⟩] }

/-- R131, an inference of the spec, for M32: a fill of 8 bytes writes the bytes of what NEXT64 answers and leaves its state; a
fill of 1 to 3 bytes writes the low-order bytes of what NEXT32 answers and leaves its state; a fill of 4 bytes writes the
bytes of what NEXT32 answers and leaves the state of NEXT64. -/
def Obligations.M32FillsAgreeWithDraws : Prop :=
  ∀ (base : Word32) (s : State), s.v32 = true → base.toNat + 8 ≤ 2 ^ 32 →
    ∃ (t32 t64 : State) (d32 d64 : Word64), exec .m32Next32 s = .next t32 ∧ t32.responses = s.responses ++ [⟨.ok, d32⟩] ∧
      exec .m32Next64 s = .next t64 ∧ t64.responses = s.responses ++ [⟨.ok, d64⟩] ∧
      (∃ t, exec (.m32Fill base 8#32) s = .next t ∧ t.s32 = t64.s32 ∧
        ∀ j, j < 8 → Memory.read t.buf (base.toNat + j) = (toBytes s.byteOrder d64.toNat 8)[j]?) ∧
      (∀ n : Word32, 1 ≤ n.toNat → n.toNat ≤ 3 → ∃ t, exec (.m32Fill base n) s = .next t ∧ t.s32 = t32.s32 ∧
        ∀ j, j < n.toNat →
          Memory.read t.buf (base.toNat + j) = (toBytes s.byteOrder (lowBytes d32.toNat n.toNat) n.toNat)[j]?) ∧
      (∃ t, exec (.m32Fill base 4#32) s = .next t ∧ t.s32 = t64.s32 ∧
        ∀ j, j < 4 → Memory.read t.buf (base.toNat + j) = (toBytes s.byteOrder d32.toNat 4)[j]?)

/-- R131, an inference of the spec, for M64: a fill of 8 bytes writes the bytes of what NEXT64 answers, a fill of 1 to 3 bytes
the low-order bytes of what NEXT32 answers, a fill of 4 bytes the bytes of what NEXT32 answers, and each leaves the state
of either draw. -/
def Obligations.M64FillsAgreeWithDraws : Prop :=
  ∀ (base : Word32) (s : State), s.v64 = true → base.toNat + 8 ≤ 2 ^ 32 →
    ∃ (t32 t64 : State) (d32 d64 : Word64), exec .m64Next32 s = .next t32 ∧ t32.responses = s.responses ++ [⟨.ok, d32⟩] ∧
      exec .m64Next64 s = .next t64 ∧ t64.responses = s.responses ++ [⟨.ok, d64⟩] ∧ t32.s64 = t64.s64 ∧
      (∃ t, exec (.m64Fill base 8#32) s = .next t ∧ t.s64 = t64.s64 ∧
        ∀ j, j < 8 → Memory.read t.buf (base.toNat + j) = (toBytes s.byteOrder d64.toNat 8)[j]?) ∧
      (∀ n : Word32, 1 ≤ n.toNat → n.toNat ≤ 4 → ∃ t, exec (.m64Fill base n) s = .next t ∧ t.s64 = t32.s64 ∧
        ∀ j, j < n.toNat →
          Memory.read t.buf (base.toNat + j) = (toBytes s.byteOrder (lowBytes d32.toNat n.toNat) n.toNat)[j]?)

/-- R42: MemWrite writes byte `j` of `to_bytes(v, n)`, written here by the formulas of R10, to `addr + j` and writes nothing
else. -/
def Obligations.MemWriteStoresItsBytes : Prop :=
  ∀ (addr n v : Nat) (s : State), addr + n ≤ 2 ^ 32 →
    ∃ m, memWrite addr n v s = .next { s with buf := m } ∧
      (∀ j, j < n → Memory.read m (addr + j) = some (BitVec.ofNat 8 (match s.byteOrder with
        | .little => v / 2 ^ (8 * j)
        | .big => v / 2 ^ (8 * (n - 1 - j))))) ∧
      (∀ a, a < addr ∨ addr + n ≤ a → Memory.read m a = Memory.read s.buf a)

/-- R10, an inference of the spec: `from_bytes` and `to_bytes` undo each other under both byte orders. -/
def Obligations.ByteSequencesRoundTrip : Prop :=
  ∀ bo : ByteOrder, (∀ v n : Nat, v < 2 ^ (8 * n) → fromBytes bo (toBytes bo v n) = v) ∧
    ∀ bs : List Byte, toBytes bo (fromBytes bo bs) bs.length = bs

/-! ### The two units and BUF (spec/10_state.md R28, R30, R31) -/

/-- R30: after a seed command and any further commands without another seed of that unit, the unit's state is the seed
advanced as many times as the commands advance it: NEXT32 once, `M32.NEXT64` twice, `M64.NEXT64` once, a fill as R125
says, a refused command never. -/
def Obligations.StateIsTheSeedAdvanced : Prop :=
  (∀ (s : State) (b0 b1 b2 b3 : Byte) (is : List Instr), (∀ i ∈ is, isSeed32 i = false) →
    s.pending = program (.m32Seed b0 b1 b2 b3 :: is) →
    ∃ t, runSteps (is.length + 1) s = .next t ∧
      t.s32 = mix32^[(is.map (advancesOf32 true)).sum] (BitVec.ofNat 32 (fromBytes s.byteOrder [b0, b1, b2, b3]))) ∧
  (∀ (s : State) (b0 b1 b2 b3 b4 b5 b6 b7 : Byte) (is : List Instr), (∀ i ∈ is, isSeed64 i = false) →
    s.pending = program (.m64Seed b0 b1 b2 b3 b4 b5 b6 b7 :: is) →
    ∃ t, runSteps (is.length + 1) s = .next t ∧
      t.s64 = mix64^[(is.map (advancesOf64 true)).sum]
        (BitVec.ofNat 64 (fromBytes s.byteOrder [b0, b1, b2, b3, b4, b5, b6, b7])))

/-- R31, "no command of unit M32 reads or writes S64 or V64, and no command of unit M64 reads or writes S32 or V32": changing
the other unit's state changes nothing but that state. -/
def Obligations.UnitsAreIndependent : Prop :=
  ∀ (i : Instr) (s : State), ∃ t, exec i s = .next t ∧
    (i.unit = .m32 → t.s64 = s.s64 ∧ t.v64 = s.v64 ∧
      ∀ x v, exec i { s with s64 := x, v64 := v } = .next { t with s64 := x, v64 := v }) ∧
    (i.unit = .m64 → t.s32 = s.s32 ∧ t.v32 = s.v32 ∧
      ∀ x v, exec i { s with s32 := x, v32 := v } = .next { t with s32 := x, v32 := v })

/-- R28, R41: the content of BUF never influences a state element or a response, only fills write it, and the bytes a fill
writes do not depend on what was there. -/
def Obligations.BufNeverInfluencesTheBlock : Prop :=
  ∀ (i : Instr) (s : State) (m : Memory), ∃ t n, exec i s = .next t ∧
    exec i { s with buf := m } = .next { t with buf := n } ∧
    ((∀ u base len, i ≠ fillOf u base len) → t.buf = s.buf ∧ n = m) ∧
    (∀ a, Memory.read t.buf a = Memory.read n a ∨
      (Memory.read t.buf a = Memory.read s.buf a ∧ Memory.read n a = Memory.read m a))

/-- R89 and R109, inferences of the spec: two cores with one byte order and with a unit in the same condition, given the same
commands of that unit, give the same responses, leave the unit in the same condition and write the same bytes. -/
def Obligations.EqualUnitsGiveEqualStreams : Prop :=
  ∀ (u : MixUnit) (is : List Instr) (s s' : State), (∀ i ∈ is, i.unit = u) → s.SameUnit u s' →
    s.byteOrder = s'.byteOrder → s.pending = program is → s'.pending = program is →
    ∃ t t' rs, runSteps is.length s = .next t ∧ runSteps is.length s' = .next t' ∧
      State.SameUnit u t t' ∧ t.responses = s.responses ++ rs ∧ t'.responses = s'.responses ++ rs ∧
      ∀ a, Memory.read t.buf a = Memory.read t'.buf a ∨
        (Memory.read t.buf a = Memory.read s.buf a ∧ Memory.read t'.buf a = Memory.read s'.buf a)

/-! ### The assembler (spec/30_encoding.md R72, R73) -/

/-- R72: a number out of range is an assembly error, not a command; a command whose numbers are in range assembles, and the
operands of a seed or a fill are the numbers as written. -/
def Obligations.AssemblerChecksItsNumbers : Prop :=
  ∀ bo : ByteOrder,
    (∀ c : AsmCommand, (assemble bo c = .error .outOfRange ↔ c.wellFormed = false) ∧
      (c.wellFormed = true → ∃ i, assemble bo c = .ok i)) ∧
    (∀ base len : Word32, assemble bo (.m32Fill base.toNat len.toNat) = .ok (.m32Fill base len) ∧
      assemble bo (.m64Fill base.toNat len.toNat) = .ok (.m64Fill base len)) ∧
    (∀ b0 b1 b2 b3 : Byte, assemble bo (.m32Seed b0.toNat b1.toNat b2.toNat b3.toNat) = .ok (.m32Seed b0 b1 b2 b3)) ∧
    (∀ b0 b1 b2 b3 b4 b5 b6 b7 : Byte,
      assemble bo (.m64Seed b0.toNat b1.toNat b2.toNat b3.toNat b4.toNat b5.toNat b6.toNat b7.toNat) =
        .ok (.m64Seed b0 b1 b2 b3 b4 b5 b6 b7))

/-- R73 (its last clause an inference of the spec): after `M32.SEEDW v`, `S32 = v` under either byte order, and after
`M64.SEEDW v`, `S64 = v`. -/
def Obligations.SeedwLoadsItsValue : Prop :=
  (∀ (v : Word32) (s : State), ∃ i t, assemble s.byteOrder (.m32Seedw v.toNat) = .ok i ∧ exec i s = .next t ∧
    t.s32 = v ∧ t.v32 = true) ∧
  (∀ (v : Word64) (s : State), ∃ i t, assemble s.byteOrder (.m64Seedw v.toNat) = .ok i ∧ exec i s = .next t ∧
    t.s64 = v ∧ t.v64 = true)
end

