-- ==== Sys2Proof/Laws/Bytes.lean ====
section
/-! SUPPORT. Laws of byte sequences (spec/00_scope.md R10, spec/42_fill_bytes.md R124). -/

namespace Sys2Proof.Machine

@[simp] theorem toBytesLittle_length (v n : Nat) : (toBytesLittle v n).length = n := by
  induction n generalizing v with
  | zero => rfl
  | succ n ih => simp [toBytesLittle, ih]

@[simp] theorem toBytes_length (bo : ByteOrder) (v n : Nat) : (toBytes bo v n).length = n := by
  cases bo <;> simp [toBytes]

/-- R10, little: byte `j` of `to_bytes(v, n)`. -/
theorem toBytesLittle_getElem? {v n j : Nat} (h : j < n) :
    (toBytesLittle v n)[j]? = some (BitVec.ofNat 8 (v / 256 ^ j)) := by
  induction n generalizing v j with
  | zero => omega
  | succ n ih =>
    cases j with
    | zero => simp [toBytesLittle]
    | succ j => rw [toBytesLittle, List.getElem?_cons_succ, ih (by omega), Nat.div_div_eq_div_mul, Nat.pow_succ']

/-- Bytes of a word below `8n` bits do not see the bits above: R124's truncation changes no byte written. -/
theorem toBytesLittle_mod (v n : Nat) : toBytesLittle (v % 2 ^ (8 * n)) n = toBytesLittle v n := by
  induction n generalizing v with
  | zero => rfl
  | succ n ih =>
    have e : 2 ^ (8 * (n + 1)) = 256 * 2 ^ (8 * n) := by rw [Nat.mul_succ, Nat.pow_add]; omega
    rw [toBytesLittle, toBytesLittle, e, Nat.mod_mul_right_div_self, ih]
    congr 1
    apply BitVec.eq_of_toNat_eq
    simp only [BitVec.toNat_ofNat]
    exact Nat.mod_mod_of_dvd v (Dvd.intro _ rfl)

theorem toBytes_lowBytes (bo : ByteOrder) (w t : Nat) : toBytes bo (lowBytes w t) t = toBytes bo w t := by
  cases bo <;> simp [toBytes, lowBytes, toBytesLittle_mod]

theorem extractLsb'_byte (w : Word64) (j : Nat) : w.extractLsb' (8 * j) 8 = BitVec.ofNat 8 (w.toNat / 256 ^ j) := by
  apply BitVec.eq_of_toNat_eq
  rw [BitVec.extractLsb'_toNat, BitVec.toNat_ofNat, Nat.shiftRight_eq_div_pow, Nat.pow_mul]

/-- R10, R124: byte `j` of the `n` bytes of a 64-bit word, written as a slice of the word. -/
theorem toBytes_getElem? (bo : ByteOrder) (w : Word64) {n j : Nat} (h : j < n) :
    (toBytes bo w.toNat n)[j]? = some (byteOfWord bo w n j) := by
  cases bo with
  | little => simp only [toBytes, byteOfWord, toBytesLittle_getElem? h, extractLsb'_byte]
  | big =>
    simp only [toBytes, byteOfWord, extractLsb'_byte]
    rw [List.getElem?_reverse (by simpa using h), toBytesLittle_length, toBytesLittle_getElem? (by omega)]

/-- Reading the little-endian bytes of `v` back gives its low-order `8n` bits. -/
theorem fromBytesLittle_toBytesLittle (v n : Nat) : fromBytesLittle (toBytesLittle v n) = v % 256 ^ n := by
  induction n generalizing v with
  | zero => simp [toBytesLittle, fromBytesLittle, Nat.mod_one]
  | succ n ih =>
    rw [toBytesLittle, fromBytesLittle, ih, BitVec.toNat_ofNat, Nat.pow_succ' (m := 256) (n := n), Nat.mod_mul (a := 256)]

/-- A byte sequence of length `n` is the little-endian form of the integer it denotes. -/
theorem toBytesLittle_fromBytesLittle (bs : List Byte) : toBytesLittle (fromBytesLittle bs) bs.length = bs := by
  induction bs with
  | nil => rfl
  | cons b bs ih =>
    have h := b.isLt
    rw [List.length_cons, toBytesLittle, fromBytesLittle,
      show (b.toNat + 256 * fromBytesLittle bs) / 256 = fromBytesLittle bs by omega, ih]
    congr 1
    apply BitVec.eq_of_toNat_eq
    rw [BitVec.toNat_ofNat]
    omega

theorem fromBytesLittle_lt (bs : List Byte) : fromBytesLittle bs < 256 ^ bs.length := by
  induction bs with
  | nil => simp [fromBytesLittle]
  | cons b bs ih =>
    have h := b.isLt
    rw [fromBytesLittle, List.length_cons, Nat.pow_succ']
    omega

end Sys2Proof.Machine
end

