-- ==== Sys2Proof/Laws/Encoding.lean ====
section
/-! SUPPORT. The fields of an encoded command (spec/30_encoding.md R61, R63). -/

namespace Sys2Proof

/-- The upper part of a word put together from two parts. -/
theorem extractLsb'_append_high {m n : Nat} (x : BitVec m) (y : BitVec n) : (x ++ y).extractLsb' n m = x := by
  apply BitVec.eq_of_getLsbD_eq
  intro i hi
  simp only [BitVec.getLsbD_extractLsb', BitVec.getLsbD_append, hi, decide_true, Bool.true_and,
    show ¬n + i < n by omega, if_false, Nat.add_sub_cancel_left]

/-- The lower part of a word put together from two parts. -/
theorem extractLsb'_append_low {m n : Nat} (x : BitVec m) (y : BitVec n) : (x ++ y).extractLsb' 0 n = y := by
  apply BitVec.eq_of_getLsbD_eq
  intro i hi
  simp only [BitVec.getLsbD_extractLsb', BitVec.getLsbD_append, hi, decide_true, Bool.true_and, Nat.zero_add, if_true]

/-- A word is its upper and lower parts put together. -/
theorem append_extractLsb' {m n : Nat} (w : BitVec (m + n)) : w.extractLsb' n m ++ w.extractLsb' 0 n = w := by
  apply BitVec.eq_of_getLsbD_eq
  intro i hi
  simp only [BitVec.getLsbD_append, BitVec.getLsbD_extractLsb', Nat.zero_add]
  split
  · next h => simp [h]
  · next h => simp [show i - n < m by omega, show n + (i - n) = i by omega]

/-- R61: the opcode field of an encoded command. -/
theorem opField_encode (i : Instr) : opField (encode i) = i.opcode := extractLsb'_append_high i.opcode i.payload

/-- R61: the payload field of an encoded command. -/
theorem payloadField_encode (i : Instr) : payloadField (encode i) = i.payload :=
  extractLsb'_append_low i.opcode i.payload

/-- Two words put together from two parts are equal exactly when the parts are. -/
theorem append_inj_iff {m n : Nat} {a c : BitVec m} {b d : BitVec n} : a ++ b = c ++ d ↔ a = c ∧ b = d :=
  ⟨fun h => ⟨by rw [← extractLsb'_append_high a b, h, extractLsb'_append_high],
    by rw [← extractLsb'_append_low a b, h, extractLsb'_append_low]⟩, fun h => by rw [h.1, h.2]⟩

/-- Masking works on each part. -/
theorem append_and_append {m n : Nat} (a c : BitVec m) (b d : BitVec n) :
    (a ++ b) &&& (c ++ d) = (a &&& c) ++ (b &&& d) := by
  apply BitVec.eq_of_getLsbD_eq
  intro i hi
  simp only [BitVec.getLsbD_and, BitVec.getLsbD_append]
  split <;> rfl

/-- R61: a command word is its opcode above its payload. -/
theorem word_eq_fields (cw : CommandWord) : (opField cw ++ payloadField cw : CommandWord) = cw :=
  append_extractLsb' (m := 8) (n := 64) cw

/-- R63: a payload is LEN above BASE. -/
theorem payload_eq_fields (p : Word64) : (lenField p ++ baseField p : Word64) = p :=
  append_extractLsb' (m := 32) (n := 32) p

/-- R63: bits 63:32 of the word are those of the payload. -/
theorem lenField_payloadField (cw : CommandWord) : lenField (payloadField cw) = cw.extractLsb' 32 32 := by
  apply BitVec.eq_of_getLsbD_eq
  intro i hi
  simp only [lenField, payloadField, BitVec.getLsbD_extractLsb', show 32 + i < 64 by omega, decide_true,
    Bool.true_and, Nat.zero_add]

/-- R64: an opcode is one of the eight or has a reserved bit set. -/
theorem opcode_cases : ∀ op : BitVec 8,
    op = 0x00#8 ∨ op = 0x01#8 ∨ op = 0x02#8 ∨ op = 0x03#8 ∨ op = 0x04#8 ∨ op = 0x05#8 ∨ op = 0x06#8 ∨ op = 0x07#8 ∨
      (8 ≤ op.toNat ∧ op.extractLsb' 3 5 ≠ 0#5) := by decide

/-- R62: `OP[7:3]` is `CW[71:67]`. -/
theorem opField_reserved (cw : CommandWord) : (opField cw).extractLsb' 3 5 = cw.extractLsb' 67 5 := by
  apply BitVec.eq_of_getLsbD_eq
  intro i hi
  simp only [opField, BitVec.getLsbD_extractLsb', hi, show 3 + i < 8 by omega, decide_true, Bool.true_and,
    show 64 + (3 + i) = 67 + i by omega]

section rows

variable {cw : CommandWord}

/-- R68, one opcode at a time. -/
theorem decode_op0 (h : opField cw = 0x00#8) : decode cw =
    if lenField (payloadField cw) = 0#32 then
      .ok (.m32Seed (seedLane (payloadField cw) 0) (seedLane (payloadField cw) 1) (seedLane (payloadField cw) 2)
        (seedLane (payloadField cw) 3))
    else .error .nonzeroReserved := by simp only [decode, h]; rfl
theorem decode_op1 (h : opField cw = 0x01#8) : decode cw = decodeN .m32Next32 (payloadField cw) := by
  simp only [decode, h]; rfl
theorem decode_op2 (h : opField cw = 0x02#8) : decode cw = decodeN .m32Next64 (payloadField cw) := by
  simp only [decode, h]; rfl
theorem decode_op3 (h : opField cw = 0x03#8) : decode cw =
    .ok (.m32Fill (baseField (payloadField cw)) (lenField (payloadField cw))) := by simp only [decode, h]; rfl
theorem decode_op4 (h : opField cw = 0x04#8) : decode cw =
    .ok (.m64Seed (seedLane (payloadField cw) 0) (seedLane (payloadField cw) 1) (seedLane (payloadField cw) 2)
      (seedLane (payloadField cw) 3) (seedLane (payloadField cw) 4) (seedLane (payloadField cw) 5)
      (seedLane (payloadField cw) 6) (seedLane (payloadField cw) 7)) := by simp only [decode, h]; rfl
theorem decode_op5 (h : opField cw = 0x05#8) : decode cw = decodeN .m64Next32 (payloadField cw) := by
  simp only [decode, h]; rfl
theorem decode_op6 (h : opField cw = 0x06#8) : decode cw = decodeN .m64Next64 (payloadField cw) := by
  simp only [decode, h]; rfl
theorem decode_op7 (h : opField cw = 0x07#8) : decode cw =
    .ok (.m64Fill (baseField (payloadField cw)) (lenField (payloadField cw))) := by simp only [decode, h]; rfl
theorem decode_high (h : 8 ≤ (opField cw).toNat) : decode cw = .error .reservedOpcode := by
  have ne : ∀ n, n < 8 → opField cw ≠ BitVec.ofNat 8 n := by
    intro n hn e
    rw [e, BitVec.toNat_ofNat] at h
    omega
  simp only [decode, ne 0 (by omega), ne 1 (by omega), ne 2 (by omega), ne 3 (by omega), ne 4 (by omega),
    ne 5 (by omega), ne 6 (by omega), ne 7 (by omega), if_false]

/-- R64: a row of format N selects its one word. -/
theorem select_formatN (op : BitVec 8) :
    cw &&& 0xFFFFFFFFFFFFFFFFFF#72 = op ++ 0#64 ↔ opField cw = op ∧ payloadField cw = 0#64 := by
  conv_lhs => lhs; lhs; rw [← word_eq_fields cw]
  rw [show (0xFFFFFFFFFFFFFFFFFF#72 : CommandWord) = (BitVec.allOnes 8 ++ BitVec.allOnes 64 : BitVec (8 + 64)) by decide,
    append_and_append, append_inj_iff, BitVec.and_allOnes, BitVec.and_allOnes]

/-- R64: a row of format F or S8 selects every word with its opcode. -/
theorem select_opcode (op : BitVec 8) :
    cw &&& 0xFF0000000000000000#72 = op ++ 0#64 ↔ opField cw = op := by
  conv_lhs => lhs; lhs; rw [← word_eq_fields cw]
  rw [show (0xFF0000000000000000#72 : CommandWord) = (BitVec.allOnes 8 ++ 0#64 : BitVec (8 + 64)) by decide,
    append_and_append, append_inj_iff, BitVec.and_allOnes, BitVec.and_zero]
  exact and_iff_left rfl

/-- R64: the row of format S4 selects the words with its opcode whose bits 63:32 are zero. -/
theorem select_formatS4 (op : BitVec 8) :
    cw &&& 0xFFFFFFFFFF00000000#72 = op ++ 0#64 ↔ opField cw = op ∧ lenField (payloadField cw) = 0#32 := by
  conv_lhs => lhs; lhs; rw [← word_eq_fields cw, ← payload_eq_fields (payloadField cw)]
  rw [show (0xFFFFFFFFFF00000000#72 : CommandWord) =
      (BitVec.allOnes 8 ++ (BitVec.allOnes 32 ++ 0#32 : Word64) : BitVec (8 + 64)) by decide,
    show (0#64 : Word64) = (0#32 ++ 0#32 : BitVec (32 + 32)) by decide,
    append_and_append, append_and_append, append_inj_iff, append_inj_iff, BitVec.and_allOnes, BitVec.and_allOnes,
    BitVec.and_zero]
  simp only [and_true]

end rows

end Sys2Proof
end

