-- ==== Sys2Proof/Laws/Memory.lean ====
section
/-! SUPPORT. Laws of BUF: read after write, every operation keeps the canonical form, equal contents are equal data. -/

namespace Sys2Proof.Machine.Memory

@[simp] theorem read_nil (a : Nat) : Memory.read [] a = none := rfl

theorem read_cons (a' : Nat) (b' : Byte) (m : Memory) (a : Nat) :
    Memory.read ((a', b') :: m) a = if a = a' then some b' else Memory.read m a := rfl

/-- A write gives its address the byte and leaves every other address alone. -/
theorem read_write (m : Memory) (a : Nat) (b : Byte) (x : Nat) :
    Memory.read (Memory.write m a b) x = if x = a then some b else Memory.read m x := by
  induction m with
  | nil => simp [Memory.write, read_cons]
  | cons c rest ih =>
    obtain ⟨a', b'⟩ := c
    simp only [Memory.write]
    split
    · rfl
    · split
      · next h => subst h; simp only [read_cons]; split <;> rfl
      · next h => simp only [read_cons, ih]; split <;> split <;> grind

@[simp] theorem read_write_same (m : Memory) (a : Nat) (b : Byte) :
    Memory.read (Memory.write m a b) a = some b := by simp [read_write]

theorem read_write_other {m : Memory} {a x : Nat} {b : Byte} (h : x ≠ a) :
    Memory.read (Memory.write m a b) x = Memory.read m x := by simp [read_write, h]

/-- Two runs of writes, the second right behind the first, are one run. -/
theorem store_append (m : Memory) (a : Nat) (bs cs : List Byte) :
    Memory.store (Memory.store m a bs) (a + bs.length) cs = Memory.store m a (bs ++ cs) := by
  induction bs generalizing m a with
  | nil => rfl
  | cons b bs ih =>
    rw [Memory.store, List.cons_append, Memory.store, ← ih, List.length_cons, Nat.add_assoc, Nat.add_comm 1]

/-- A run of writes gives its addresses the bytes in order and leaves every other address alone. -/
theorem read_store (m : Memory) (a : Nat) (bs : List Byte) (x : Nat) :
    Memory.read (Memory.store m a bs) x =
      if a ≤ x ∧ x < a + bs.length then bs[x - a]? else Memory.read m x := by
  induction bs generalizing m a with
  | nil => simp [Memory.store]
  | cons b bs ih =>
    rw [Memory.store, ih, read_write]
    rcases Nat.lt_trichotomy x a with h | h | h
    · rw [if_neg (by omega), if_neg (by omega), if_neg (by omega)]
    · subst h; simp
    · obtain ⟨k, rfl⟩ := Nat.exists_eq_add_of_lt h
      have e : a + k + 1 - a = (a + k + 1 - (a + 1)) + 1 := by omega
      simp only [List.length_cons]
      by_cases hk : a + k + 1 < a + (bs.length + 1)
      · rw [if_pos (by omega), if_pos (by omega), e, List.getElem?_cons_succ]
      · rw [if_neg (by omega), if_neg (by omega), if_neg (by omega)]

theorem wfFrom_cons (lo a : Nat) (b : Byte) (m : Memory) :
    Memory.wfFrom lo ((a, b) :: m) = true ↔ lo ≤ a ∧ a < bufSize ∧ Memory.wfFrom (a + 1) m = true := by
  simp [Memory.wfFrom, and_assoc]

theorem wfFrom_mono {lo lo' : Nat} (h : lo' ≤ lo) {m : Memory} (hm : Memory.wfFrom lo m = true) :
    Memory.wfFrom lo' m = true := by
  cases m with
  | nil => rfl
  | cons c m => obtain ⟨a, b⟩ := c; rw [wfFrom_cons] at *; exact ⟨by omega, hm.2⟩

/-- In the canonical form an address below the bound is not listed. -/
theorem read_eq_none_of_lt {lo : Nat} {m : Memory} (hm : Memory.wfFrom lo m = true) {x : Nat} (hx : x < lo) :
    Memory.read m x = none := by
  induction m generalizing lo with
  | nil => rfl
  | cons c m ih =>
    obtain ⟨a, b⟩ := c
    rw [wfFrom_cons] at hm
    rw [read_cons, if_neg (by omega)]
    exact ih hm.2.2 (by omega)

/-- In the canonical form a listed address is an address of BUF. -/
theorem lt_bufSize_of_read {lo : Nat} {m : Memory} (hm : Memory.wfFrom lo m = true) {x : Nat} {b : Byte}
    (h : Memory.read m x = some b) : x < bufSize := by
  induction m generalizing lo with
  | nil => simp at h
  | cons c m ih =>
    obtain ⟨a, b'⟩ := c
    rw [wfFrom_cons] at hm
    rw [read_cons] at h
    split at h
    · omega
    · exact ih hm.2.2 h

theorem write_wfFrom {lo a : Nat} (hlo : lo ≤ a) (ha : a < bufSize) {m : Memory} (hm : Memory.wfFrom lo m = true)
    (b : Byte) : Memory.wfFrom lo (Memory.write m a b) = true := by
  induction m generalizing lo with
  | nil => simp [Memory.write, hlo, ha, Memory.wfFrom]
  | cons c m ih =>
    obtain ⟨a', b'⟩ := c
    rw [wfFrom_cons] at hm
    simp only [Memory.write]
    split
    · rw [wfFrom_cons, wfFrom_cons]; exact ⟨hlo, ha, by omega, hm.2⟩
    · split
      · rw [wfFrom_cons]; refine ⟨hlo, ha, ?_⟩; subst a; exact hm.2.2
      · rw [wfFrom_cons]; exact ⟨hm.1, hm.2.1, ih (by omega) hm.2.2⟩

/-- A single-byte write keeps the canonical form. -/
theorem write_wf {m : Memory} (hm : m.wf = true) {a : Nat} (ha : a < bufSize) (b : Byte) :
    (Memory.write m a b).wf = true := write_wfFrom (Nat.zero_le a) ha hm b

/-- A run of writes inside BUF keeps the canonical form. -/
theorem store_wf {m : Memory} (hm : m.wf = true) (a : Nat) (bs : List Byte) (ha : a + bs.length ≤ bufSize) :
    (Memory.store m a bs).wf = true := by
  induction bs generalizing m a with
  | nil => exact hm
  | cons b bs ih =>
    rw [List.length_cons] at ha
    exact ih (write_wf hm (by omega) b) (a + 1) (by omega)

/-- Contents in canonical form that read the same everywhere are the same data. -/
theorem wfFrom_ext {lo : Nat} {m m' : Memory} (hm : Memory.wfFrom lo m = true) (hm' : Memory.wfFrom lo m' = true)
    (h : ∀ x, Memory.read m x = Memory.read m' x) : m = m' := by
  induction m generalizing lo m' with
  | nil =>
    cases m' with
    | nil => rfl
    | cons c m' => obtain ⟨a, b⟩ := c; simpa [read_cons] using h a
  | cons c m ih =>
    obtain ⟨a, b⟩ := c
    rw [wfFrom_cons] at hm
    cases m' with
    | nil => simpa [read_cons] using h a
    | cons c' m' =>
      obtain ⟨a', b'⟩ := c'
      rw [wfFrom_cons] at hm'
      have haa : a = a' := by
        rcases Nat.lt_trichotomy a a' with hlt | heq | hgt
        · have := h a
          rw [read_cons, if_pos rfl, read_cons, if_neg (by omega), read_eq_none_of_lt hm'.2.2 (by omega)] at this
          simp at this
        · exact heq
        · have := h a'
          rw [read_cons, if_neg (by omega), read_eq_none_of_lt hm.2.2 (by omega), read_cons, if_pos rfl] at this
          simp at this
      subst haa
      have hbb : b = b' := by simpa [read_cons] using h a
      subst hbb
      congr 1
      refine ih hm.2.2 hm'.2.2 fun x => ?_
      by_cases hx : x = a
      · subst hx; rw [read_eq_none_of_lt hm.2.2 (by omega), read_eq_none_of_lt hm'.2.2 (by omega)]
      · simpa [read_cons, hx] using h x

theorem wf_ext {m m' : Memory} (hm : m.wf = true) (hm' : m'.wf = true)
    (h : ∀ x, Memory.read m x = Memory.read m' x) : m = m' := wfFrom_ext hm hm' h

/-- What the mixture of R161 reads as: the new byte where it was written and is known, the old one everywhere else. -/
theorem read_mixture (wrote : Nat → Bool) (old new : Memory) (a n x : Nat) :
    Memory.read (Memory.mixture wrote old new a n) x =
      if a ≤ x ∧ x < a + n ∧ wrote x = true ∧ (Memory.read new x).isSome = true then Memory.read new x
      else Memory.read old x := by
  induction n with
  | zero => rw [Memory.mixture, if_neg (by omega)]
  | succ n ih =>
    simp only [Memory.mixture]
    by_cases hx : x = a + n
    · subst hx
      have hlast : ¬(a ≤ a + n ∧ a + n < a + n ∧ wrote (a + n) = true ∧
          (Memory.read new (a + n)).isSome = true) := by omega
      rw [if_neg hlast] at ih
      cases hw : wrote (a + n) <;> cases hr : Memory.read new (a + n) <;> simp [ih]
    · have : (a ≤ x ∧ x < a + (n + 1) ∧ wrote x = true ∧ (Memory.read new x).isSome = true) ↔
          (a ≤ x ∧ x < a + n ∧ wrote x = true ∧ (Memory.read new x).isSome = true) :=
        ⟨fun h => ⟨h.1, by omega, h.2.2⟩, fun h => ⟨h.1, by omega, h.2.2⟩⟩
      simp only [this, ← ih]
      split
      · exact read_write_other hx
      · rfl
      · rfl

/-- The mixture of R161 keeps the canonical form. -/
theorem mixture_wf (wrote : Nat → Bool) {old new : Memory} (ho : old.wf = true) (hn : new.wf = true) (a n : Nat) :
    (Memory.mixture wrote old new a n).wf = true := by
  induction n with
  | zero => exact ho
  | succ n ih =>
    simp only [Memory.mixture]
    split
    · next h => exact write_wf ih (lt_bufSize_of_read hn h) _
    · exact ih
    · exact ih

end Sys2Proof.Machine.Memory
end

