-- ==== Sys2Proof/Laws/State.lean ====
section
/-! SUPPORT. What each update of State leaves in each field, and what each flag update leaves of a unit's flag, true by
definition, so that no proof unfolds a record update. -/

namespace Sys2Proof.Machine

variable (s : State)

@[simp] theorem State.setS32_s32 (w : Word32) : (s.setS32 w).s32 = w := rfl
@[simp] theorem State.setS32_v32 (w : Word32) : (s.setS32 w).v32 = s.v32 := rfl
@[simp] theorem State.setS32_s64 (w : Word32) : (s.setS32 w).s64 = s.s64 := rfl
@[simp] theorem State.setS32_v64 (w : Word32) : (s.setS32 w).v64 = s.v64 := rfl
@[simp] theorem State.setS32_buf (w : Word32) : (s.setS32 w).buf = s.buf := rfl
@[simp] theorem State.setS32_byteOrder (w : Word32) : (s.setS32 w).byteOrder = s.byteOrder := rfl
@[simp] theorem State.setS32_pending (w : Word32) : (s.setS32 w).pending = s.pending := rfl
@[simp] theorem State.setS32_responses (w : Word32) : (s.setS32 w).responses = s.responses := rfl
@[simp] theorem State.setS32_freeIndex (w : Word32) : (s.setS32 w).freeIndex = s.freeIndex := rfl

@[simp] theorem State.setS64_s32 (w : Word64) : (s.setS64 w).s32 = s.s32 := rfl
@[simp] theorem State.setS64_v32 (w : Word64) : (s.setS64 w).v32 = s.v32 := rfl
@[simp] theorem State.setS64_s64 (w : Word64) : (s.setS64 w).s64 = w := rfl
@[simp] theorem State.setS64_v64 (w : Word64) : (s.setS64 w).v64 = s.v64 := rfl
@[simp] theorem State.setS64_buf (w : Word64) : (s.setS64 w).buf = s.buf := rfl
@[simp] theorem State.setS64_byteOrder (w : Word64) : (s.setS64 w).byteOrder = s.byteOrder := rfl
@[simp] theorem State.setS64_pending (w : Word64) : (s.setS64 w).pending = s.pending := rfl
@[simp] theorem State.setS64_responses (w : Word64) : (s.setS64 w).responses = s.responses := rfl
@[simp] theorem State.setS64_freeIndex (w : Word64) : (s.setS64 w).freeIndex = s.freeIndex := rfl

@[simp] theorem State.setV32_s32 : (s.setV32).s32 = s.s32 := rfl
@[simp] theorem State.setV32_v32 : (s.setV32).v32 = true := rfl
@[simp] theorem State.setV32_s64 : (s.setV32).s64 = s.s64 := rfl
@[simp] theorem State.setV32_v64 : (s.setV32).v64 = s.v64 := rfl
@[simp] theorem State.setV32_buf : (s.setV32).buf = s.buf := rfl
@[simp] theorem State.setV32_byteOrder : (s.setV32).byteOrder = s.byteOrder := rfl
@[simp] theorem State.setV32_pending : (s.setV32).pending = s.pending := rfl
@[simp] theorem State.setV32_responses : (s.setV32).responses = s.responses := rfl
@[simp] theorem State.setV32_freeIndex : (s.setV32).freeIndex = s.freeIndex := rfl

@[simp] theorem State.setV64_s32 : (s.setV64).s32 = s.s32 := rfl
@[simp] theorem State.setV64_v32 : (s.setV64).v32 = s.v32 := rfl
@[simp] theorem State.setV64_s64 : (s.setV64).s64 = s.s64 := rfl
@[simp] theorem State.setV64_v64 : (s.setV64).v64 = true := rfl
@[simp] theorem State.setV64_buf : (s.setV64).buf = s.buf := rfl
@[simp] theorem State.setV64_byteOrder : (s.setV64).byteOrder = s.byteOrder := rfl
@[simp] theorem State.setV64_pending : (s.setV64).pending = s.pending := rfl
@[simp] theorem State.setV64_responses : (s.setV64).responses = s.responses := rfl
@[simp] theorem State.setV64_freeIndex : (s.setV64).freeIndex = s.freeIndex := rfl

@[simp] theorem State.clearFlags_s32 : (s.clearFlags).s32 = s.s32 := rfl
@[simp] theorem State.clearFlags_v32 : (s.clearFlags).v32 = false := rfl
@[simp] theorem State.clearFlags_s64 : (s.clearFlags).s64 = s.s64 := rfl
@[simp] theorem State.clearFlags_v64 : (s.clearFlags).v64 = false := rfl
@[simp] theorem State.clearFlags_buf : (s.clearFlags).buf = s.buf := rfl
@[simp] theorem State.clearFlags_byteOrder : (s.clearFlags).byteOrder = s.byteOrder := rfl
@[simp] theorem State.clearFlags_pending : (s.clearFlags).pending = s.pending := rfl
@[simp] theorem State.clearFlags_responses : (s.clearFlags).responses = s.responses := rfl
@[simp] theorem State.clearFlags_freeIndex : (s.clearFlags).freeIndex = s.freeIndex := rfl

@[simp] theorem State.setBuf_s32 (m : Memory) : (s.setBuf m).s32 = s.s32 := rfl
@[simp] theorem State.setBuf_v32 (m : Memory) : (s.setBuf m).v32 = s.v32 := rfl
@[simp] theorem State.setBuf_s64 (m : Memory) : (s.setBuf m).s64 = s.s64 := rfl
@[simp] theorem State.setBuf_v64 (m : Memory) : (s.setBuf m).v64 = s.v64 := rfl
@[simp] theorem State.setBuf_buf (m : Memory) : (s.setBuf m).buf = m := rfl
@[simp] theorem State.setBuf_byteOrder (m : Memory) : (s.setBuf m).byteOrder = s.byteOrder := rfl
@[simp] theorem State.setBuf_pending (m : Memory) : (s.setBuf m).pending = s.pending := rfl
@[simp] theorem State.setBuf_responses (m : Memory) : (s.setBuf m).responses = s.responses := rfl
@[simp] theorem State.setBuf_freeIndex (m : Memory) : (s.setBuf m).freeIndex = s.freeIndex := rfl

@[simp] theorem State.setPending_s32 (es : List HostEvent) : (s.setPending es).s32 = s.s32 := rfl
@[simp] theorem State.setPending_v32 (es : List HostEvent) : (s.setPending es).v32 = s.v32 := rfl
@[simp] theorem State.setPending_s64 (es : List HostEvent) : (s.setPending es).s64 = s.s64 := rfl
@[simp] theorem State.setPending_v64 (es : List HostEvent) : (s.setPending es).v64 = s.v64 := rfl
@[simp] theorem State.setPending_buf (es : List HostEvent) : (s.setPending es).buf = s.buf := rfl
@[simp] theorem State.setPending_byteOrder (es : List HostEvent) : (s.setPending es).byteOrder = s.byteOrder := rfl
@[simp] theorem State.setPending_pending (es : List HostEvent) : (s.setPending es).pending = es := rfl
@[simp] theorem State.setPending_responses (es : List HostEvent) : (s.setPending es).responses = s.responses := rfl
@[simp] theorem State.setPending_freeIndex (es : List HostEvent) : (s.setPending es).freeIndex = s.freeIndex := rfl

@[simp] theorem State.respond_s32 (c : Code) (d : Word64) : (s.respond c d).s32 = s.s32 := rfl
@[simp] theorem State.respond_v32 (c : Code) (d : Word64) : (s.respond c d).v32 = s.v32 := rfl
@[simp] theorem State.respond_s64 (c : Code) (d : Word64) : (s.respond c d).s64 = s.s64 := rfl
@[simp] theorem State.respond_v64 (c : Code) (d : Word64) : (s.respond c d).v64 = s.v64 := rfl
@[simp] theorem State.respond_buf (c : Code) (d : Word64) : (s.respond c d).buf = s.buf := rfl
@[simp] theorem State.respond_byteOrder (c : Code) (d : Word64) : (s.respond c d).byteOrder = s.byteOrder := rfl
@[simp] theorem State.respond_pending (c : Code) (d : Word64) : (s.respond c d).pending = s.pending := rfl
@[simp] theorem State.respond_responses (c : Code) (d : Word64) : (s.respond c d).responses = s.responses ++ [⟨c, d⟩] := rfl
@[simp] theorem State.respond_freeIndex (c : Code) (d : Word64) : (s.respond c d).freeIndex = s.freeIndex := rfl

@[simp] theorem State.refuse_s32 (c : Code) : (s.refuse c).s32 = s.s32 := rfl
@[simp] theorem State.refuse_v32 (c : Code) : (s.refuse c).v32 = s.v32 := rfl
@[simp] theorem State.refuse_s64 (c : Code) : (s.refuse c).s64 = s.s64 := rfl
@[simp] theorem State.refuse_v64 (c : Code) : (s.refuse c).v64 = s.v64 := rfl
@[simp] theorem State.refuse_buf (c : Code) : (s.refuse c).buf = s.buf := rfl
@[simp] theorem State.refuse_byteOrder (c : Code) : (s.refuse c).byteOrder = s.byteOrder := rfl
@[simp] theorem State.refuse_pending (c : Code) : (s.refuse c).pending = s.pending := rfl
@[simp] theorem State.refuse_responses (c : Code) : (s.refuse c).responses = s.responses ++ [⟨c, 0#64⟩] := rfl
@[simp] theorem State.refuse_freeIndex (c : Code) : (s.refuse c).freeIndex = s.freeIndex := rfl

@[simp] theorem State.takeReset_s32 : (s.takeReset).s32 = 0#32 := rfl
@[simp] theorem State.takeReset_v32 : (s.takeReset).v32 = false := rfl
@[simp] theorem State.takeReset_s64 : (s.takeReset).s64 = 0#64 := rfl
@[simp] theorem State.takeReset_v64 : (s.takeReset).v64 = false := rfl
@[simp] theorem State.takeReset_buf : (s.takeReset).buf = s.buf := rfl
@[simp] theorem State.takeReset_byteOrder : (s.takeReset).byteOrder = s.byteOrder := rfl
@[simp] theorem State.takeReset_pending : (s.takeReset).pending = s.pending := rfl
@[simp] theorem State.takeReset_responses : (s.takeReset).responses = s.responses := rfl
@[simp] theorem State.takeReset_freeIndex : (s.takeReset).freeIndex = s.freeIndex := rfl

@[simp] theorem State.present_s32 (cw : CommandWord) : (s.present cw).s32 = s.s32 := rfl
@[simp] theorem State.present_v32 (cw : CommandWord) : (s.present cw).v32 = s.v32 := rfl
@[simp] theorem State.present_s64 (cw : CommandWord) : (s.present cw).s64 = s.s64 := rfl
@[simp] theorem State.present_v64 (cw : CommandWord) : (s.present cw).v64 = s.v64 := rfl
@[simp] theorem State.present_buf (cw : CommandWord) : (s.present cw).buf = s.buf := rfl
@[simp] theorem State.present_byteOrder (cw : CommandWord) : (s.present cw).byteOrder = s.byteOrder := rfl
@[simp] theorem State.present_pending (cw : CommandWord) : (s.present cw).pending = .command cw :: s.pending := rfl
@[simp] theorem State.present_responses (cw : CommandWord) : (s.present cw).responses = s.responses := rfl
@[simp] theorem State.present_freeIndex (cw : CommandWord) : (s.present cw).freeIndex = s.freeIndex := rfl

@[simp] theorem State.seeded_m32 : s.seeded .m32 = s.v32 := rfl
@[simp] theorem State.seeded_m64 : s.seeded .m64 = s.v64 := rfl

@[simp] theorem State.resetWith_v32 (bo : ByteOrder) : (State.resetWith bo).v32 = false := rfl
@[simp] theorem State.resetWith_v64 (bo : ByteOrder) : (State.resetWith bo).v64 = false := rfl
@[simp] theorem State.resetWith_buf (bo : ByteOrder) : (State.resetWith bo).buf = [] := rfl
@[simp] theorem State.resetWith_byteOrder (bo : ByteOrder) : (State.resetWith bo).byteOrder = bo := rfl
@[simp] theorem State.resetWith_pending (bo : ByteOrder) : (State.resetWith bo).pending = [] := rfl
@[simp] theorem State.resetWith_responses (bo : ByteOrder) : (State.resetWith bo).responses = [] := rfl

end Sys2Proof.Machine
end

