-- ==== Sys2Proof/Laws/Ops.lean ====
section
/-! SUPPORT. What each shared operation does, once: sequencing, MemWrite (R42), the checks of R143 and R144, reset. -/

namespace Sys2Proof.Machine

@[simp] theorem andThen_next (s : State) (k : State → Result) : andThen (.next s) k = k s := rfl

/-- A sequence gives a next state exactly when both its parts do. -/
theorem andThen_eq_next_iff {o : Result} {k : State → Result} {t : State} :
    andThen o k = .next t ↔ ∃ s, o = .next s ∧ k s = .next t := by
  cases o <;> simp [andThen]

/-- R42: inside BUF, MemWrite stores the bytes and goes on. -/
theorem memWrite_next {addr n v : Nat} {s : State} (h : addr + n ≤ bufSize) :
    memWrite addr n v s = .next (s.setBuf (Memory.store s.buf addr (toBytes s.byteOrder v n))) := if_pos h

/-- R42: outside BUF, MemWrite has no address to write to. -/
theorem memWrite_fault {addr n v : Nat} {s : State} (h : ¬addr + n ≤ bufSize) :
    memWrite addr n v s = .fault (.outsideBuf addr) := if_neg h

/-- R143: on a seeded unit the command goes on. -/
theorem whenSeeded_of_seeded {u : MixUnit} {s : State} {k : State → Result} (h : s.seeded u = true) :
    whenSeeded u s k = k s := if_pos h

/-- R143: on an unseeded unit the command is refused. -/
theorem whenSeeded_of_unseeded {u : MixUnit} {s : State} {k : State → Result} (h : s.seeded u = false) :
    whenSeeded u s k = .next (s.refuse .unseeded) := by rw [whenSeeded, h]; rfl

/-- R121: a range inside BUF passes. -/
theorem whenInRange_of_ok {base len : Word32} {s : State} {k : State → Result} (h : rangeOk base len = true) :
    whenInRange base len s k = k s := if_pos h

/-- R144: a range that leaves BUF is refused. -/
theorem whenInRange_of_not {base len : Word32} {s : State} {k : State → Result} (h : rangeOk base len = false) :
    whenInRange base len s k = .next (s.refuse .bufferRange) := by rw [whenInRange, h]; rfl

theorem rangeOk_iff {base len : Word32} : rangeOk base len = true ↔ base.toNat + len.toNat ≤ bufSize := by
  simp [rangeOk]

theorem rangeOk_eq_false_iff {base len : Word32} : rangeOk base len = false ↔ bufSize < base.toNat + len.toNat := by
  simp only [rangeOk, decide_eq_false_iff_not, Nat.not_le]

end Sys2Proof.Machine
end

