-- ==== Sys2Proof/Laws/Fill.lean ====
section
/-! SUPPORT. What a fill does (spec/42_fill_bytes.md R120 to R126), for both units at once: the state after `k` 64-bit
draws, the word of each draw, and one lemma for each of `fillChunks`, `fillTail`, `fillBytes` and `fillCommand`. -/

namespace Sys2Proof.Machine

/-- The state after `k` 64-bit draws of a unit. -/
def State.advanced (u : MixUnit) (k : Nat) (s : State) : State :=
  match u with
  | .m32 => s.setS32 (mix32^[2 * k] s.s32)
  | .m64 => s.setS64 (mix64^[k] s.s64)

/-- The `c`-th 64-bit draw (from 0) of a unit. -/
def State.chunkWord (u : MixUnit) (s : State) (c : Nat) : Word64 :=
  match u with
  | .m32 => chunkWord32 s.s32 c
  | .m64 => chunkWord64 s.s64 c

/-- The state a whole fill of `len` bytes leaves its unit in (R125). -/
def State.filled (u : MixUnit) (len : Nat) (s : State) : State :=
  match u with
  | .m32 => s.setS32 (mix32^[fillAdvances32 len] s.s32)
  | .m64 => s.setS64 (mix64^[fillAdvances64 len] s.s64)

@[simp] theorem State.advanced_zero (u : MixUnit) (s : State) : s.advanced u 0 = s := by cases u <;> rfl

@[simp] theorem State.advanced_buf (u : MixUnit) (k : Nat) (s : State) : (s.advanced u k).buf = s.buf := by
  cases u <;> rfl

@[simp] theorem State.advanced_byteOrder (u : MixUnit) (k : Nat) (s : State) :
    (s.advanced u k).byteOrder = s.byteOrder := by cases u <;> rfl

@[simp] theorem State.setBuf_setBuf (s : State) (m m' : Memory) : (s.setBuf m).setBuf m' = s.setBuf m' := rfl

@[simp] theorem State.advanced_setBuf (u : MixUnit) (k : Nat) (s : State) (m : Memory) :
    (s.setBuf m).advanced u k = (s.advanced u k).setBuf m := by cases u <;> rfl

@[simp] theorem State.chunkWord_setBuf (u : MixUnit) (s : State) (m : Memory) (c : Nat) :
    (s.setBuf m).chunkWord u c = s.chunkWord u c := by cases u <;> rfl

theorem State.advanced_advanced (u : MixUnit) (j k : Nat) (s : State) :
    (s.advanced u j).advanced u k = s.advanced u (j + k) := by
  cases u with
  | m32 =>
    simp only [State.advanced, State.setS32, ← Function.iterate_add_apply]
    rw [show 2 * k + 2 * j = 2 * (j + k) by omega]
  | m64 =>
    simp only [State.advanced, State.setS64, ← Function.iterate_add_apply]
    rw [Nat.add_comm k j]

theorem State.chunkWord_advanced (u : MixUnit) (j c : Nat) (s : State) :
    (s.advanced u j).chunkWord u c = s.chunkWord u (j + c) := by
  cases u with
  | m32 =>
    simp only [State.advanced, State.chunkWord, chunkWord32, State.setS32_s32, ← Function.iterate_add_apply]
    rw [show 2 * c + 2 + 2 * j = 2 * (j + c) + 2 by omega, show 2 * c + 1 + 2 * j = 2 * (j + c) + 1 by omega]
  | m64 =>
    simp only [State.advanced, State.chunkWord, chunkWord64, State.setS64_s64, ← Function.iterate_add_apply]
    rw [show c + 1 + j = j + c + 1 by omega]

/-- R120: a 64-bit draw returns the unit's next chunk word and advances the unit, nothing else. -/
theorem draw64_eq (u : MixUnit) (s : State) : draw64 u s = (s.chunkWord u 0, s.advanced u 1) := by cases u <;> rfl

/-- R124: the low-order bytes of a 32-bit draw of M32 are those of the 64-bit draw it is the low half of. -/
theorem byteOfWord_low (bo : ByteOrder) (hi lo : Word32) {n j : Nat} (hn : n ≤ 4) (hj : j < n) :
    byteOfWord bo (lo.setWidth 64) n j = byteOfWord bo (hi ++ lo) n j := by
  have key : ∀ p, p < 4 → (lo.setWidth 64).extractLsb' (8 * p) 8 = (hi ++ lo : Word64).extractLsb' (8 * p) 8 := by
    intro p hp
    apply BitVec.eq_of_getLsbD_eq
    intro i hi'
    have hlt : 8 * p + i < 32 := by omega
    simp only [BitVec.getLsbD_extractLsb', BitVec.getLsbD_append, BitVec.getLsbD_setWidth, hlt, if_true,
      show 8 * p + i < 64 by omega, decide_true, Bool.true_and]
  cases bo with
  | little => exact key j (by omega)
  | big => exact key (n - 1 - j) (by omega)

/-- R124: the low-order bytes of the low half of a 64-bit draw are those of the draw. -/
theorem byteOfWord_extract (bo : ByteOrder) (w : Word64) {n j : Nat} (hn : n ≤ 4) (hj : j < n) :
    byteOfWord bo ((w.extractLsb' 0 32).setWidth 64) n j = byteOfWord bo w n j := by
  rw [byteOfWord_low bo (w.extractLsb' 32 32) _ hn hj]
  congr 1
  ext i hi
  simp only [BitVec.getElem_append, BitVec.getElem_extractLsb']
  split
  · simp [BitVec.getLsbD_eq_getElem hi]
  · rw [show 32 + (i - 32) = i by omega, BitVec.getLsbD_eq_getElem hi]

/-- R122 to R124: the bytes a fill of `len` bytes writes, in address order. -/
def State.fillImage (u : MixUnit) (len : Nat) (s : State) : List Byte :=
  (List.range len).map fun i => byteOfWord s.byteOrder (s.chunkWord u (i / 8)) (chunkBytes len i) (i % 8)

@[simp] theorem State.fillImage_length (u : MixUnit) (len : Nat) (s : State) : (s.fillImage u len).length = len := by
  simp [State.fillImage]

theorem State.fillImage_getElem? (u : MixUnit) {len i : Nat} (s : State) (h : i < len) :
    (s.fillImage u len)[i]? =
      some (byteOfWord s.byteOrder (s.chunkWord u (i / 8)) (chunkBytes len i) (i % 8)) := by
  simp [State.fillImage, h]

@[simp] theorem State.fillImage_setBuf (u : MixUnit) (len : Nat) (s : State) (m : Memory) :
    (s.setBuf m).fillImage u len = s.fillImage u len := by simp [State.fillImage]

/-- The bytes of a fill of up to 8 bytes are those of one word whose bytes in that width are the next draw's. -/
theorem toBytes_eq_fillImage {u : MixUnit} {t : Nat} {s : State} {w : Word64} (h8 : t ≤ 8)
    (hw : ∀ i, i < t → byteOfWord s.byteOrder w t i = byteOfWord s.byteOrder (s.chunkWord u 0) t i) :
    toBytes s.byteOrder w.toNat t = s.fillImage u t := by
  apply List.ext_getElem?
  intro i
  by_cases hi : i < t
  · have hc : chunkBytes t i = t := by simp only [chunkBytes]; split <;> omega
    rw [toBytes_getElem? _ _ hi, State.fillImage_getElem? u s hi, hw i hi, hc, Nat.div_eq_of_lt (by omega),
      Nat.mod_eq_of_lt (by omega)]
  · rw [List.getElem?_eq_none (by simpa using hi), List.getElem?_eq_none (by simpa using hi)]

/-- R130: the bytes of a fill that begins with whole chunks are those of the chunks and those of a fill of the rest. -/
theorem State.fillImage_append (u : MixUnit) (q n : Nat) (s : State) :
    s.fillImage u (8 * q + n) = s.fillImage u (8 * q) ++ (s.advanced u q).fillImage u n := by
  apply List.ext_getElem?
  intro i
  by_cases h1 : i < 8 * q
  · have e : chunkBytes (8 * q + n) i = chunkBytes (8 * q) i := by
      simp only [chunkBytes, if_pos (show i / 8 < (8 * q + n) / 8 by omega), if_pos (show i / 8 < 8 * q / 8 by omega)]
    rw [List.getElem?_append_left (by simpa using h1), State.fillImage_getElem? u s h1,
      State.fillImage_getElem? u s (by omega), e]
  · rw [List.getElem?_append_right (by simpa using h1), State.fillImage_length]
    by_cases h2 : i < 8 * q + n
    · have e : chunkBytes (8 * q + n) i = chunkBytes n (i - 8 * q) := by
        simp only [chunkBytes]
        split <;> split <;> omega
      rw [State.fillImage_getElem? u s h2, State.fillImage_getElem? u _ (by omega), State.chunkWord_advanced,
        State.advanced_byteOrder, e, show q + (i - 8 * q) / 8 = i / 8 by omega, show (i - 8 * q) % 8 = i % 8 by omega]
    · rw [List.getElem?_eq_none (by simpa using h2), List.getElem?_eq_none (by simp; omega)]

/-- R122: the whole chunks. -/
theorem fillChunks_eq (u : MixUnit) (q : Nat) : ∀ (addr : Nat) (s : State), addr + 8 * q ≤ bufSize →
    fillChunks u addr q s =
      .next ((s.advanced u q).setBuf (Memory.store s.buf addr (s.fillImage u (8 * q)))) := by
  induction q with
  | zero => intro addr s _; simp [fillChunks, State.fillImage, Memory.store]; rfl
  | succ q ih =>
    intro addr s h
    have hb : toBytes s.byteOrder (s.chunkWord u 0).toNat 8 = s.fillImage u 8 :=
      toBytes_eq_fillImage (Nat.le_refl 8) fun _ _ => rfl
    have happ := State.fillImage_append u 1 (8 * q) s
    rw [show 8 * 1 + 8 * q = 8 * (q + 1) by omega, Nat.mul_one] at happ
    simp only [fillChunks, draw64_eq, fillUnit]
    rw [memWrite_next (by omega), andThen_next, ih (addr + 8) _ (by omega)]
    simp only [State.advanced_setBuf, State.setBuf_setBuf, State.advanced_advanced, State.setBuf_buf,
      State.advanced_buf, State.advanced_byteOrder, State.fillImage_setBuf, hb, happ]
    rw [← Memory.store_append, State.fillImage_length, Nat.add_comm 1]

/-- R123, R124: the tail, empty or of 1 to 7 bytes: the low-order bytes of one word, which are those of the next 64-bit
draw. -/
theorem fillTail_eq (u : MixUnit) {addr t : Nat} (s : State) (h8 : t < 8) (h : addr + t ≤ bufSize) :
    fillTail u addr t s = .next ((s.filled u t).setBuf (Memory.store s.buf addr (s.fillImage u t))) := by
  have small : ∀ w : Word32, w.toNat = (w.setWidth 64).toNat := fun w => by
    rw [BitVec.toNat_setWidth, Nat.mod_eq_of_lt (by have := w.isLt; omega)]
  have hdiv : t / 8 = 0 := by omega
  have hmod : t % 8 = t := by omega
  simp only [fillTail, fillTail32Max]
  by_cases h4 : 3 < t
  · rw [if_pos h4, memWrite_next h, toBytes_lowBytes, draw64_eq, State.advanced_byteOrder, State.advanced_buf,
      toBytes_eq_fillImage (Nat.le_of_lt h8) fun _ _ => rfl]
    cases u <;>
      simp [State.advanced, State.filled, fillAdvances32, fillAdvances64, hdiv, hmod,
        show t ≠ 0 by omega, show ¬t ≤ 3 by omega]
  · rw [if_neg h4]
    by_cases h1 : 1 ≤ t
    · have hb : toBytes s.byteOrder ((draw32 u s).1.setWidth 64).toNat t = s.fillImage u t := by
        refine toBytes_eq_fillImage (Nat.le_of_lt h8) fun i hi => ?_
        cases u with
        | m32 => exact byteOfWord_low s.byteOrder (mix32 (mix32 s.s32)) (mix32 s.s32) (by omega) hi
        | m64 => exact byteOfWord_extract s.byteOrder (mix64 s.s64) (by omega) hi
      have hbo : (draw32 u s).2.byteOrder = s.byteOrder := by cases u <;> rfl
      have hbuf : (draw32 u s).2.buf = s.buf := by cases u <;> rfl
      rw [if_pos h1, memWrite_next h, toBytes_lowBytes, small, hbo, hbuf, hb]
      cases u <;>
        simp [draw32, draw32M64, advance32, advance64, State.filled, fillAdvances32, fillAdvances64, hdiv, hmod,
          show t ≠ 0 by omega, show t ≤ 3 by omega]
    · obtain rfl : t = 0 := by omega
      rw [if_neg h1]
      cases u <;> rfl

/-- R122: the state after the whole chunks and the tail is the state after the fill (R125). -/
theorem State.filled_advanced (u : MixUnit) (len : Nat) (s : State) :
    (s.advanced u (len / 8)).filled u (len % 8) = s.filled u len := by
  cases u with
  | m32 =>
    simp only [State.advanced, State.filled, State.setS32_s32, ← Function.iterate_add_apply]
    have : fillAdvances32 (len % 8) + 2 * (len / 8) = fillAdvances32 len := by
      simp only [fillAdvances32, Nat.mod_mod, show len % 8 / 8 = 0 by omega]
      split <;> [skip; split] <;> omega
    rw [this]; rfl
  | m64 =>
    simp only [State.advanced, State.filled, State.setS64_s64, ← Function.iterate_add_apply]
    have : fillAdvances64 (len % 8) + len / 8 = fillAdvances64 len := by
      simp only [fillAdvances64, Nat.mod_mod, show len % 8 / 8 = 0 by omega]
      split <;> omega
    rw [this]; rfl

/-- R122 to R125: a fill inside BUF writes its bytes, advances its unit and answers (OK, 0). -/
theorem fillBytes_eq (u : MixUnit) (base len : Nat) (s : State) (h : base + len ≤ bufSize) :
    fillBytes u base len s =
      .next (((s.filled u len).setBuf (Memory.store s.buf base (s.fillImage u len))).respond .ok 0#64) := by
  have happ := State.fillImage_append u (len / 8) (len % 8) s
  rw [Nat.div_add_mod len 8] at happ
  simp only [fillBytes, fillUnit]
  rw [fillChunks_eq u (len / 8) base s (by omega), andThen_next, fillTail_eq u _ (by omega) (by omega), andThen_next,
    ← State.filled_advanced u len, happ, ← Memory.store_append, State.fillImage_length]
  cases u <;> rfl

/-- R122 to R125, R43: a fill inside BUF writes every position of its range from the unit's draws, leaves every other
address alone, keeps the canonical form, advances its unit and answers (OK, 0). -/
theorem fillBytes_spec (u : MixUnit) (base len : Nat) (s : State) (h : base + len ≤ bufSize) :
    ∃ m, fillBytes u base len s = .next (((s.filled u len).setBuf m).respond .ok 0#64) ∧
      (∀ i, i < len → Memory.read m (base + i) =
        some (byteOfWord s.byteOrder (s.chunkWord u (i / 8)) (chunkBytes len i) (i % 8))) ∧
      (∀ a, a < base ∨ base + len ≤ a → Memory.read m a = Memory.read s.buf a) ∧
      (s.buf.wf = true → m.wf = true) := by
  refine ⟨_, fillBytes_eq u base len s h, fun i hi => ?_, fun a ha => ?_, fun hs => Memory.store_wf hs _ _ (by simpa)⟩
  · rw [Memory.read_store, State.fillImage_length, if_pos (by omega), Nat.add_sub_cancel_left,
      State.fillImage_getElem? u s hi]
  · rw [Memory.read_store, State.fillImage_length, if_neg (by omega)]

/-- R121, R126, R127, R128: a fill on a seeded unit whose range lies in BUF runs. -/
theorem fillCommand_accepted {u : MixUnit} {base len : Word32} {s : State} (hs : s.seeded u = true)
    (hr : rangeOk base len = true) : fillCommand u base len s = fillBytes u base.toNat len.toNat s := by
  rw [fillCommand, whenSeeded_of_seeded hs, whenInRange_of_ok hr]

/-- R143, R144, R146: the two refusals of a fill, in their order, and otherwise the fill. -/
theorem fillCommand_cases (u : MixUnit) (base len : Word32) (s : State) :
    (s.seeded u = false ∧ fillCommand u base len s = .next (s.refuse .unseeded)) ∨
    (s.seeded u = true ∧ rangeOk base len = false ∧ fillCommand u base len s = .next (s.refuse .bufferRange)) ∨
    (s.seeded u = true ∧ rangeOk base len = true ∧
      fillCommand u base len s = fillBytes u base.toNat len.toNat s) := by
  cases hs : s.seeded u with
  | false => exact .inl ⟨rfl, by rw [fillCommand, whenSeeded_of_unseeded hs]⟩
  | true =>
    cases hr : rangeOk base len with
    | false => exact .inr (.inl ⟨rfl, rfl, by rw [fillCommand, whenSeeded_of_seeded hs, whenInRange_of_not hr]⟩)
    | true => exact .inr (.inr ⟨rfl, rfl, fillCommand_accepted hs hr⟩)

end Sys2Proof.Machine
end

