-- ==== Sys2Proof/Laws/PerInstr.lean ====
section
/-! SUPPORT. What holds of each command as syntax: its word carries its opcode in `OP` and has no reserved opcode bit
(spec/30_encoding.md R61, R62, R64). -/

namespace Sys2Proof.Laws.OpcodeField

/-- R61, R62: `OP` of the command's word is the command's opcode, and `OP[7:3]` is zero. -/
def Statement (i : Instr) : Prop :=
  opField (encode i) = i.opcode ∧ CommandWord.reservedOpcode (encode i) = false

/-- `OP[7:3]` of a command's word is read from its opcode. -/
theorem reservedOpcode_encode (i : Instr) :
    CommandWord.reservedOpcode (encode i) = (i.opcode.extractLsb' 3 5 != 0#5) := by
  have : (encode i).extractLsb' 67 5 = (opField (encode i)).extractLsb' 3 5 := by
    apply BitVec.eq_of_getLsbD_eq
    intro j hj
    simp only [opField, BitVec.getLsbD_extractLsb', hj, show 3 + j < 8 by omega, decide_true, Bool.true_and,
      show 64 + (3 + j) = 67 + j by omega]
  rw [CommandWord.reservedOpcode, this, opField_encode]

theorem statement_of_opcode (i : Instr) (h : (i.opcode.extractLsb' 3 5 != 0#5) = false) : Statement i :=
  ⟨opField_encode i, (reservedOpcode_encode i).trans h⟩

theorem m32Seed (b0 b1 b2 b3 : Byte) : Statement (.m32Seed b0 b1 b2 b3) :=
  statement_of_opcode _ (by simp only [Instr.opcode]; decide)
theorem m32Next32 : Statement .m32Next32 :=
  statement_of_opcode _ (by simp only [Instr.opcode]; decide)
theorem m32Next64 : Statement .m32Next64 :=
  statement_of_opcode _ (by simp only [Instr.opcode]; decide)
theorem m32Fill (base len : Word32) : Statement (.m32Fill base len) :=
  statement_of_opcode _ (by simp only [Instr.opcode]; decide)
theorem m64Seed (b0 b1 b2 b3 b4 b5 b6 b7 : Byte) : Statement (.m64Seed b0 b1 b2 b3 b4 b5 b6 b7) :=
  statement_of_opcode _ (by simp only [Instr.opcode]; decide)
theorem m64Next32 : Statement .m64Next32 :=
  statement_of_opcode _ (by simp only [Instr.opcode]; decide)
theorem m64Next64 : Statement .m64Next64 :=
  statement_of_opcode _ (by simp only [Instr.opcode]; decide)
theorem m64Fill (base len : Word32) : Statement (.m64Fill base len) :=
  statement_of_opcode _ (by simp only [Instr.opcode]; decide)

end Sys2Proof.Laws.OpcodeField
end

