-- ==== Sys2Proof/Laws/Step.lean ====
section
/-! SUPPORT. What a command, a command word and a step can do, once: the equation of each command on a seeded unit, what
every command leaves alone, and the cases of a step. -/

namespace Sys2Proof.Machine

/-- R85: `M32.NEXT32` on a seeded unit. -/
theorem execM32Next32_seeded {s : State} (h : s.v32 = true) :
    execM32Next32 s = .next ((s.setS32 (mix32 s.s32)).respond .ok ((mix32 s.s32).setWidth 64)) := by
  rw [execM32Next32, whenSeeded_of_seeded (u := .m32) h]; rfl

/-- R86: `M32.NEXT64` on a seeded unit. -/
theorem execM32Next64_seeded {s : State} (h : s.v32 = true) :
    execM32Next64 s =
      .next ((s.setS32 (mix32 (mix32 s.s32))).respond .ok (mix32 (mix32 s.s32) ++ mix32 s.s32)) := by
  rw [execM32Next64, whenSeeded_of_seeded (u := .m32) h]; rfl

/-- R105: `M64.NEXT64` on a seeded unit. -/
theorem execM64Next64_seeded {s : State} (h : s.v64 = true) :
    execM64Next64 s = .next ((s.setS64 (mix64 s.s64)).respond .ok (mix64 s.s64)) := by
  rw [execM64Next64, whenSeeded_of_seeded (u := .m64) h]; rfl

/-- R106: `M64.NEXT32` on a seeded unit. -/
theorem execM64Next32_seeded {s : State} (h : s.v64 = true) :
    execM64Next32 s =
      .next ((s.setS64 (mix64 s.s64)).respond .ok (((mix64 s.s64).extractLsb' 0 32).setWidth 64)) := by
  rw [execM64Next32, whenSeeded_of_seeded (u := .m64) h]; rfl

/-- R143: the draws and fills of a unit that is not seeded. -/
theorem exec_unseeded (i : Instr) {s : State} (h : s.seeded i.unit = false) (h32 : isSeed32 i = false)
    (h64 : isSeed64 i = false) : exec i s = .next (s.refuse .unseeded) := by
  cases i with
  | m32Seed => simp [isSeed32] at h32
  | m64Seed => simp [isSeed64] at h64
  | m32Next32 => rw [exec, execM32Next32, whenSeeded_of_unseeded (u := .m32) h]
  | m32Next64 => rw [exec, execM32Next64, whenSeeded_of_unseeded (u := .m32) h]
  | m32Fill => rw [exec, execM32Fill, fillCommand, whenSeeded_of_unseeded (u := .m32) h]
  | m64Next32 => rw [exec, execM64Next32, whenSeeded_of_unseeded (u := .m64) h]
  | m64Next64 => rw [exec, execM64Next64, whenSeeded_of_unseeded (u := .m64) h]
  | m64Fill => rw [exec, execM64Fill, fillCommand, whenSeeded_of_unseeded (u := .m64) h]

/-- R126, R127, R143, R144, R146: a fill of either unit, in one equation. -/
theorem exec_fillOf (u : MixUnit) (base len : Word32) (s : State) :
    exec (fillOf u base len) s =
      if s.seeded u then
        if rangeOk base len then
          .next (((s.filled u len.toNat).setBuf (Memory.store s.buf base.toNat (s.fillImage u len.toNat))).respond .ok
            0#64)
        else .next (s.refuse .bufferRange)
      else .next (s.refuse .unseeded) := by
  rw [show exec (fillOf u base len) s = fillCommand u base len s by cases u <;> rfl]
  obtain ⟨hs, h⟩ | ⟨hs, hr, h⟩ | ⟨hs, hr, h⟩ := fillCommand_cases u base len s
  · simp [h, hs]
  · simp [h, hs, hr]
  · simp [h, hs, hr, fillBytes_eq u _ _ s (rangeOk_iff.1 hr)]

/-- What every outcome of a command has in common: it goes on, gives one response that carries data only when it is OK,
leaves the port and the byte order alone, keeps BUF canonical, and writes only inside the range given. -/
structure Performed (s t : State) (range : Nat × Nat) (r : Response) : Prop where
  responses : t.responses = s.responses ++ [r]
  response_wf : r.wf = true
  pending : t.pending = s.pending
  byteOrder : t.byteOrder = s.byteOrder
  freeIndex : t.freeIndex = s.freeIndex
  buf_wf : s.buf.wf = true → t.buf.wf = true
  outside : ∀ a, a < range.1 ∨ range.1 + range.2 ≤ a → Memory.read t.buf a = Memory.read s.buf a

/-- A command that touches only its unit's register and flag. -/
theorem performed_of_respond {s u : State} {c : Code} {d : Word64} (hc : c = .ok ∨ d = 0#64) (range : Nat × Nat)
    (hp : u.pending = s.pending) (ho : u.byteOrder = s.byteOrder) (hf : u.freeIndex = s.freeIndex)
    (hb : u.buf = s.buf) (hr : u.responses = s.responses) : Performed s (u.respond c d) range ⟨c, d⟩ :=
  ⟨by simp [hr], by simpa [Response.wf] using hc, hp, ho, hf, by simp [hb], by simp [hb]⟩

/-- R140: a refusal. -/
theorem performed_refuse (s : State) (c : Code) (range : Nat × Nat) :
    Performed s (s.refuse c) range ⟨c, 0#64⟩ :=
  performed_of_respond (.inr rfl) range rfl rfl rfl rfl rfl

/-- R126, R127, R147: a fill, refused or performed. -/
theorem performed_fillCommand (u : MixUnit) (base len : Word32) (s : State) :
    ∃ t r, fillCommand u base len s = .next t ∧ Performed s t (base.toNat, len.toNat) r := by
  obtain ⟨-, h⟩ | ⟨-, -, h⟩ | ⟨-, hr, h⟩ := fillCommand_cases u base len s
  · exact ⟨_, _, h, performed_refuse s _ _⟩
  · exact ⟨_, _, h, performed_refuse s _ _⟩
  · obtain ⟨m, hm, -, hout, hwf⟩ := fillBytes_spec u base.toNat len.toNat s (rangeOk_iff.mp hr)
    refine ⟨_, ⟨.ok, 0#64⟩, by rw [h, hm], ⟨?_, by decide, ?_, ?_, ?_, hwf, hout⟩⟩ <;> cases u <;> rfl

/-- R140, R141, R147: what a command does. -/
theorem exec_performed (i : Instr) (s : State) :
    ∃ t r, exec i s = .next t ∧ Performed s t (Instr.fillRange i) r := by
  cases i with
  | m32Seed => refine ⟨_, ⟨.ok, 0#64⟩, rfl, ?_⟩; exact performed_of_respond (.inl rfl) _ rfl rfl rfl rfl rfl
  | m64Seed => refine ⟨_, ⟨.ok, 0#64⟩, rfl, ?_⟩; exact performed_of_respond (.inl rfl) _ rfl rfl rfl rfl rfl
  | m32Next32 =>
    cases hs : s.v32 with
    | false => exact ⟨_, _, exec_unseeded .m32Next32 hs rfl rfl, performed_refuse s _ _⟩
    | true => exact ⟨_, _, execM32Next32_seeded hs, performed_of_respond (.inl rfl) _ rfl rfl rfl rfl rfl⟩
  | m32Next64 =>
    cases hs : s.v32 with
    | false => exact ⟨_, _, exec_unseeded .m32Next64 hs rfl rfl, performed_refuse s _ _⟩
    | true => exact ⟨_, _, execM32Next64_seeded hs, performed_of_respond (.inl rfl) _ rfl rfl rfl rfl rfl⟩
  | m64Next32 =>
    cases hs : s.v64 with
    | false => exact ⟨_, _, exec_unseeded .m64Next32 hs rfl rfl, performed_refuse s _ _⟩
    | true => exact ⟨_, _, execM64Next32_seeded hs, performed_of_respond (.inl rfl) _ rfl rfl rfl rfl rfl⟩
  | m64Next64 =>
    cases hs : s.v64 with
    | false => exact ⟨_, _, exec_unseeded .m64Next64 hs rfl rfl, performed_refuse s _ _⟩
    | true => exact ⟨_, _, execM64Next64_seeded hs, performed_of_respond (.inl rfl) _ rfl rfl rfl rfl rfl⟩
  | m32Fill base len => exact performed_fillCommand _ base len s
  | m64Fill base len => exact performed_fillCommand _ base len s

theorem performWord_of_ok {cw : CommandWord} {i : Instr} (h : decode cw = .ok i) (s : State) :
    performWord cw s = exec i s := by rw [performWord, h]

theorem performWord_of_error {cw : CommandWord} {e : IllegalWord} (h : decode cw = .error e) (s : State) :
    performWord cw s = .next (s.refuse .illegalCommand) := by rw [performWord, h]

/-- R60, R140, R147: what a command word does. -/
theorem performWord_performed (cw : CommandWord) (s : State) :
    ∃ t r, performWord cw s = .next t ∧ Performed s t (wordRange cw) r := by
  cases h : decode cw with
  | error e => exact ⟨_, _, performWord_of_error h s, performed_refuse s _ _⟩
  | ok i =>
    obtain ⟨t, r, ht, hp⟩ := exec_performed i s
    exact ⟨t, r, by rw [performWord_of_ok h, ht], by rw [wordRange, h]; exact hp⟩

/-- R161: what a reset that arrives during a command does, in terms of the command performed whole. -/
theorem interruptedBy_of_next {cw : CommandWord} {s t : State} (h : performWord cw s = .next t) :
    interruptedBy cw s = .next { (s.setBuf (Memory.mixture (Config.interruptedFillWrote s.freeIndex) s.buf t.buf
      (wordRange cw).1 (wordRange cw).2)).takeReset with freeIndex := s.freeIndex + 1 } := by
  rw [interruptedBy, h]; rfl

/-- R170: what any event does: it goes on, takes nothing from what is pending behind it, keeps the byte order and the
canonical form of BUF, and a command, but no reset, gives one response. -/
theorem performEvent_effect (e : HostEvent) (s : State) :
    ∃ t, performEvent e s = .next t ∧ t.pending = s.pending ∧ t.byteOrder = s.byteOrder ∧
      (s.buf.wf = true → t.buf.wf = true) ∧
      match e with
      | .command _ => ∃ r, t.responses = s.responses ++ [r] ∧ r.wf = true
      | .reset => t.responses = s.responses
      | .resetDuring _ => t.responses = s.responses := by
  cases e with
  | command cw =>
    obtain ⟨t, r, h, p⟩ := performWord_performed cw s
    exact ⟨t, h, p.pending, p.byteOrder, p.buf_wf, r, p.responses, p.response_wf⟩
  | reset => exact ⟨_, rfl, rfl, rfl, id, rfl⟩
  | resetDuring cw =>
    obtain ⟨t, r, h, p⟩ := performWord_performed cw s
    exact ⟨_, interruptedBy_of_next h, rfl, rfl, fun hs => Memory.mixture_wf _ hs (p.buf_wf hs) _ _, rfl⟩

/-- R151: with nothing presented the block holds its state. -/
theorem step_of_nil {s : State} (h : s.pending = []) : step s = .next s := by rw [step, h]

/-- R165: the first event presented is performed. -/
theorem step_of_cons {s : State} {e : HostEvent} {rest : List HostEvent} (h : s.pending = e :: rest) :
    step s = performEvent e (s.setPending rest) := by rw [step, h]

/-- A run of `n + 1` steps is a step that goes on and a run of `n` steps from there. -/
theorem runSteps_succ {s t : State} (h : step s = .next t) (n : Nat) : runSteps (n + 1) s = runSteps n t := by
  rw [runSteps, h, andThen_next]

end Sys2Proof.Machine
end

