-- ==== Sys2Proof/Tests/Slice0.lean ====
section
/-! SUPPORT. Tests of the model, their expected results from spec/95_test_vectors.md (the section in each docstring) or from
the rule named, and for every obligation with hypotheses a witness that meets them. -/

namespace Sys2Proof.Tests

open Sys2Proof.Machine

/-- The start state of V5, V6 and V8: both units hold 10. -/
def seeded10 (bo : ByteOrder) : State :=
  { State.resetWith bo with s32 := 10#32, v32 := true, s64 := 10#64, v64 := true }

/-- The step that performs a word from a state. -/
def sent (s : State) (cw : CommandWord) : Result := step (s.withFetchWord 72 cw.toNat)

/-- The responses after a step. -/
def answers : Result → List Response
  | .next t => t.responses
  | .fault _ => []
  | .refused _ => []

/-- Both state registers after a step. -/
def registers : Result → Option (Word32 × Word64)
  | .next t => some (t.s32, t.s64)
  | .fault _ => none
  | .refused _ => none

/-- BUF after a step, as its listed cells. -/
def cells : Result → Memory
  | .next t => t.buf
  | .fault _ => []
  | .refused _ => []

/-- The state after a step. -/
def after : Result → Option State
  | .next t => some t
  | .fault _ => none
  | .refused _ => none

/-- Consecutive cells. -/
def cellsAt : Nat → List Byte → Memory
  | _, [] => []
  | a, b :: bs => (a, b) :: cellsAt (a + 1) bs

/-! ### WellFormed: one ill-formed term for each check -/

/-- V7, R66 (a). -/
theorem test_illegal_reserved_opcode : CommandWord.reservedOpcode 0x080000000000000000#72 = true ∧
    CommandWord.illegal 0x080000000000000000#72 = true ∧ CommandWord.illegal 0xFF0000000000000000#72 = true ∧
    CommandWord.illegal 0x070000000000000000#72 = false := by decide

/-- V7, R66 (b). -/
theorem test_illegal_nonzero_payload : CommandWord.nonzeroPayloadN 0x010000000000000001#72 = true ∧
    CommandWord.illegal 0x010000000000000001#72 = true ∧ CommandWord.illegal 0x068000000000000000#72 = true ∧
    CommandWord.illegal 0x010000000000000000#72 = false := by decide

/-- V7, R66 (c). -/
theorem test_illegal_nonzero_reserved : CommandWord.nonzeroReservedS4 0x00000000010000000A#72 = true ∧
    CommandWord.illegal 0x00000000010000000A#72 = true ∧ CommandWord.illegal 0x04000000010000000A#72 = false := by
  decide

/-- R65: every operand value of a command is legal. -/
theorem test_wellFormed_commands : (Instr.m32Fill 0xFFFFFFFF#32 0xFFFFFFFF#32).wellFormed = true := by decide

/-- R72: a seed byte is 0 .. 255. -/
theorem test_asm_byte_range : (AsmCommand.m32Seed 256 0 0 0).wellFormed = false ∧
    (AsmCommand.m32Seed 255 0 0 255).wellFormed = true ∧ (AsmCommand.m64Seed 0 0 0 0 0 0 0 256).wellFormed = false ∧
    (AsmCommand.m64Seed 0 0 0 0 0 0 0 255).wellFormed = true := by decide

/-- R72: BASE and LEN are 0 .. 4294967295. -/
theorem test_asm_word_range : (AsmCommand.m32Fill 4294967296 0).wellFormed = false ∧
    (AsmCommand.m32Fill 0 4294967296).wellFormed = false ∧ (AsmCommand.m64Fill 4294967296 0).wellFormed = false ∧
    (AsmCommand.m64Fill 0 4294967296).wellFormed = false ∧
    (AsmCommand.m64Fill 4294967295 4294967295).wellFormed = true := by decide

/-- R73: a SEEDW value has the width of its unit. -/
theorem test_asm_seedw_range : (AsmCommand.m32Seedw 4294967296).wellFormed = false ∧
    (AsmCommand.m32Seedw 4294967295).wellFormed = true ∧
    (AsmCommand.m64Seedw 18446744073709551616).wellFormed = false ∧
    (AsmCommand.m64Seedw 18446744073709551615).wellFormed = true := by decide

/-! ### Decoding: words of V7 -/

theorem test_decode_m32Seed : decode 0x00000000000A000000#72 = .ok (.m32Seed 0#8 0#8 0#8 10#8) := by decide
theorem test_decode_m32Next32 : decode 0x010000000000000000#72 = .ok .m32Next32 := by decide
theorem test_decode_m32Next64 : decode 0x020000000000000000#72 = .ok .m32Next64 := by decide
theorem test_decode_m32Fill : decode 0x03003D090000000000#72 = .ok (.m32Fill 0#32 4000000#32) := by decide
theorem test_decode_m64Seed : decode 0x04EFCDAB8967452301#72 =
    .ok (.m64Seed 0x01#8 0x23#8 0x45#8 0x67#8 0x89#8 0xab#8 0xcd#8 0xef#8) := by decide
theorem test_decode_m64Next32 : decode 0x050000000000000000#72 = .ok .m64Next32 := by decide
theorem test_decode_m64Next64 : decode 0x060000000000000000#72 = .ok .m64Next64 := by decide
theorem test_decode_m64Fill : decode 0x0700000008FFFFFFF8#72 = .ok (.m64Fill 0xFFFFFFF8#32 8#32) := by decide

/-- V7, the illegal words. -/
theorem test_decode_illegal : decode 0x080000000000000000#72 = .error .reservedOpcode ∧
    decode 0xFF0000000000000000#72 = .error .reservedOpcode ∧
    decode 0x010000000000000001#72 = .error .nonzeroPayload ∧
    decode 0x068000000000000000#72 = .error .nonzeroPayload ∧
    decode 0x00000000010000000A#72 = .error .nonzeroReserved := by decide

/-- The same word through the table's numbering: a row's word, and a word that is none. -/
theorem test_decodeTableWord : decodeTableWord 72 0x030000000700001000 = some (.m32Fill 0x1000#32 7#32) ∧
    decodeTableWord 72 0x080000000000000000 = none := by decide

/-! ### The mixers: V2 and V3 -/

theorem test_mix32 : mix32 0x80000000#32 = 0xcd64c000#32 ∧ mix32 0xffffffff#32 = 0xbbeeb010#32 ∧
    mix32 0x4d21d5ef#32 = 0xfd937e38#32 ∧ mix32 0xfd937e38#32 = 0x4d21d5ef#32 := by decide
theorem test_mix64 : mix64 0x8000000000000000#64 = 0x8f780810af31a493#64 ∧
    mix64 0xffffffffffffffff#64 = 0x64b5720b4b825f21#64 ∧ mix64 0x0000000200000000#64 = 0x6b80f8591e1145c3#64 ∧
    mix64 0x00000001ffffffff#64 = 0xc08c4a56f3c4443d#64 := by decide

/-! ### One step of each command -/

/-- V4. -/
theorem test_m32Seed : registers (sent (.resetWith .little) 0x000000000078563412#72) = some (0x78563412#32, 0#64) ∧
    registers (sent (.resetWith .big) 0x000000000078563412#72) = some (0x12345678#32, 0#64) ∧
    answers (sent (.resetWith .big) 0x000000000078563412#72) = [⟨.ok, 0#64⟩] := by decide

/-- V4. -/
theorem test_m64Seed :
    registers (sent (.resetWith .little) 0x04EFCDAB8967452301#72) = some (0#32, 0xefcdab8967452301#64) ∧
    registers (sent (.resetWith .big) 0x04EFCDAB8967452301#72) = some (0#32, 0x0123456789abcdef#64) := by decide

/-- V2. -/
theorem test_m32Next32 : registers (sent (seeded10 .big) 0x010000000000000000#72) = some (0x65c187a2#32, 10#64) ∧
    answers (sent (seeded10 .big) 0x010000000000000000#72) = [⟨.ok, 0x65c187a2#64⟩] := by decide

/-- V2: the first draw is the low half. -/
theorem test_m32Next64 : registers (sent (seeded10 .big) 0x020000000000000000#72) = some (0xb0ab6685#32, 10#64) ∧
    answers (sent (seeded10 .big) 0x020000000000000000#72) = [⟨.ok, 0xb0ab668565c187a2#64⟩] := by decide

/-- V3: the state keeps all 64 bits. -/
theorem test_m64Next32 : registers (sent (seeded10 .big) 0x050000000000000000#72) = some (10#32, 0x646172442548d30d#64) ∧
    answers (sent (seeded10 .big) 0x050000000000000000#72) = [⟨.ok, 0x2548d30d#64⟩] := by decide

/-- V3. -/
theorem test_m64Next64 : registers (sent (seeded10 .big) 0x060000000000000000#72) = some (10#32, 0x646172442548d30d#64) ∧
    answers (sent (seeded10 .big) 0x060000000000000000#72) = [⟨.ok, 0x646172442548d30d#64⟩] := by decide

/-- V5, the rows of length 9 and 12: a chunk and a tail from a 32-bit draw, and a tail of 4 bytes, which costs two
advances. -/
theorem test_m32Fill_little : cells (sent (seeded10 .little) 0x030000000900002000#72) =
      cellsAt 0x2000 [0xa2#8, 0x87#8, 0xc1#8, 0x65#8, 0x85#8, 0x66#8, 0xab#8, 0xb0#8, 0x31#8] ∧
    registers (sent (seeded10 .little) 0x030000000900002000#72) = some (0x9ae0f531#32, 10#64) ∧
    cells (sent (seeded10 .little) 0x030000000C00002000#72) =
      cellsAt 0x2000 [0xa2#8, 0x87#8, 0xc1#8, 0x65#8, 0x85#8, 0x66#8, 0xab#8, 0xb0#8, 0x31#8, 0xf5#8, 0xe0#8, 0x9a#8] ∧
    registers (sent (seeded10 .little) 0x030000000C00002000#72) = some (0x7c9711e6#32, 10#64) := by decide

/-- V6, the row of length 13: a chunk and a tail from a 64-bit draw, its low-order bytes most significant first. -/
theorem test_m32Fill_big : cells (sent (seeded10 .big) 0x030000000D00002000#72) =
      cellsAt 0x2000 [0xb0#8, 0xab#8, 0x66#8, 0x85#8, 0x65#8, 0xc1#8, 0x87#8, 0xa2#8, 0xe6#8, 0x9a#8, 0xe0#8, 0xf5#8,
        0x31#8] ∧
    registers (sent (seeded10 .big) 0x030000000D00002000#72) = some (0x7c9711e6#32, 10#64) := by decide

/-- V5, the row of length 13. -/
theorem test_m64Fill_little : cells (sent (seeded10 .little) 0x070000000D00002000#72) =
      cellsAt 0x2000 [0x0d#8, 0xd3#8, 0x48#8, 0x25#8, 0x44#8, 0x72#8, 0x61#8, 0x64#8, 0xb4#8, 0x54#8, 0xc8#8, 0x82#8,
        0xe0#8] ∧
    registers (sent (seeded10 .little) 0x070000000D00002000#72) = some (10#32, 0x3ca027e082c854b4#64) := by decide

/-- V6, the row of length 3: a tail alone, from a truncated draw. -/
theorem test_m64Fill_big :
    cells (sent (seeded10 .big) 0x070000000300002000#72) = cellsAt 0x2000 [0x48#8, 0xd3#8, 0x0d#8] ∧
    registers (sent (seeded10 .big) 0x070000000300002000#72) = some (10#32, 0x646172442548d30d#64) := by decide

/-! ### Refusals and the top of BUF: V8 -/

theorem test_refusal_unseeded : answers (sent (.resetWith .little) 0x010000000000000000#72) = [⟨.unseeded, 0#64⟩] ∧
    answers (sent (.resetWith .little) 0x060000000000000000#72) = [⟨.unseeded, 0#64⟩] ∧
    answers (sent (.resetWith .little) 0x030000000000000000#72) = [⟨.unseeded, 0#64⟩] ∧
    answers (sent (.resetWith .little) 0x03FFFFFFFFFFFFFFFF#72) = [⟨.unseeded, 0#64⟩] ∧
    answers (sent (.resetWith .little) 0x010000000000000001#72) = [⟨.illegalCommand, 0#64⟩] := by decide

/-- A fill one byte over the top, one that ends at the top, and an empty one at the last address. -/
theorem test_fill_at_the_top :
    after (sent (seeded10 .little) 0x0300000002FFFFFFFF#72) =
      some { seeded10 .little with responses := [⟨.bufferRange, 0#64⟩] } ∧
    after (sent (seeded10 .little) 0x0300000001FFFFFFFF#72) =
      some { seeded10 .little with
        s32 := 0x65c187a2#32, buf := [(0xFFFFFFFF, 0xa2#8)], responses := [⟨.ok, 0#64⟩] } ∧
    after (sent (seeded10 .little) 0x0300000000FFFFFFFF#72) =
      some { seeded10 .little with responses := [⟨.ok, 0#64⟩] } := by decide

/-! ### Memory, reset, the assembler -/

/-- R46: a write keeps the addresses rising and replaces the byte that was there. -/
theorem test_memory_write : Memory.write (Memory.write [(4, 1#8), (9, 2#8)] 6 3#8) 4 5#8 =
    [(4, 5#8), (6, 3#8), (9, 2#8)] ∧ Memory.wf [(4, 5#8), (6, 3#8), (9, 2#8)] = true ∧
    Memory.wf [(6, 3#8), (4, 5#8)] = false ∧ Memory.wf [(0x100000000, 0#8)] = false := by decide

/-- The memory of the reset state is canonical. -/
theorem test_reset_memory_wf : State.reset.buf.wf = true := rfl

/-- R160: a reset clears both flags and leaves BUF. -/
theorem test_reset_event : after (step { seeded10 .big with pending := [.reset], buf := [(7, 0xee#8)] }) =
    some { State.resetWith .big with buf := [(7, 0xee#8)] } := by decide

/-- R72 and V7: `M32.FILL 0x1000, 7 ;x`. -/
theorem test_assembleLine_fill : assembleLine .little
    ['M', '3', '2', '.', 'F', 'I', 'L', 'L', ' ', '0', 'x', '1', '0', '0', '0', ',', ' ', '7', ' ', ';', 'x'] =
    .ok (some 0x030000000700001000#72) := by decide

/-- R73 and V4: `M32.SEEDW 10` under both byte orders. -/
theorem test_assembleLine_seedw :
    assembleLine .little ['M', '3', '2', '.', 'S', 'E', 'E', 'D', 'W', ' ', '1', '0'] = .ok (some 0x00000000000000000A#72) ∧
    assembleLine .big ['M', '3', '2', '.', 'S', 'E', 'E', 'D', 'W', ' ', '1', '0'] = .ok (some 0x00000000000A000000#72) := by
  decide

/-- R72: mnemonics are case-sensitive, a number out of range is an error, a line may be empty. -/
theorem test_assembleLine_errors :
    assembleLine .little ['m', '3', '2', '.', 'N', 'E', 'X', 'T', '3', '2'] = .error .syntaxError ∧
    assembleLine .little ['M', '3', '2', '.', 'S', 'E', 'E', 'D', ' ', '2', '5', '6', ',', '0', ',', '0', ',', '0'] =
      .error .outOfRange ∧
    assembleLine .little [';', 'x'] = .ok none := by decide

/-! ### Witnesses: for each obligation with hypotheses, a state and operands that meet them, clause by clause -/

theorem witness_EncodeOfDecodeIsTheWord : decode 0x03FFFFFFFFFFFFFFFF#72 = .ok (.m32Fill 0xFFFFFFFF#32 0xFFFFFFFF#32) := by
  decide

/-- Each of (a), (b), (c) alone, a word with none of them, and the three opcodes whose every payload is legal. -/
theorem witness_IllegalWordsAreExactlyThese :
    (0x080000000000000000#72).extractLsb' 67 5 ≠ 0#5 ∧
    ((0x010000000000000001#72).extractLsb' 64 8 = 0x01#8 ∧ (0x010000000000000001#72).extractLsb' 0 64 ≠ 0#64) ∧
    ((0x00000000010000000A#72).extractLsb' 64 8 = 0x00#8 ∧ (0x00000000010000000A#72).extractLsb' 32 32 ≠ 0#32) ∧
    ((0x07FFFFFFFFFFFFFFFF#72).extractLsb' 67 5 = 0#5 ∧ (0x07FFFFFFFFFFFFFFFF#72).extractLsb' 64 8 = 0x07#8) := by
  decide

/-- A row and its word, and the first opcode that is none. -/
theorem witness_OpcodeMapRowsSelectTheirCommands :
    (⟨"M32.NEXT32", 0xFFFFFFFFFFFFFFFFFF#72, 0x010000000000000000#72⟩ : OpcodeRow) ∈ opcodeMap ∧
    0x010000000000000000#72 &&& 0xFFFFFFFFFFFFFFFFFF#72 = 0x010000000000000000#72 ∧
    8 ≤ ((0x080000000000000000#72).extractLsb' 64 8).toNat := by decide

/-- A legal word and an illegal one, presented. -/
theorem witness_StepPerformsTheCommandPresented :
    ((State.reset.present 0x010000000000000000#72).pending = [.command 0x010000000000000000#72] ∧
      decode 0x010000000000000000#72 = .ok .m32Next32) ∧
    ((State.reset.present 0x080000000000000000#72).pending = [.command 0x080000000000000000#72] ∧
      decode 0x080000000000000000#72 = .error .reservedOpcode) := ⟨⟨rfl, by decide⟩, ⟨rfl, by decide⟩⟩

theorem witness_IdleBlockHoldsItsState : State.reset.pending = [] := rfl

theorem witness_EveryStepKeepsTheInvariant : State.reset.Inv ∧ step State.reset = .next State.reset :=
  ⟨⟨rfl, fun _ h => by cases h⟩, rfl⟩

theorem witness_ByteOrderIsFixed : step State.reset = .next State.reset := rfl

/-- Each kind of event, first in what is pending, and its step: a seed, an illegal word, a reset, a reset during a
draw. -/
theorem witness_EveryCommandIsAnsweredOnce (e : HostEvent)
    (h : e ∈ [.command 0x00000000000000000A#72, .command 0x080000000000000000#72, .reset,
      .resetDuring 0x060000000000000000#72]) :
    ∃ s t rest, s.pending = e :: rest ∧ step s = .next t := by
  simp only [List.mem_cons, List.not_mem_nil, or_false] at h
  rcases h with rfl | rfl | rfl | rfl <;>
    exact ⟨{ seeded10 .big with pending := [_] }, _, [], rfl, rfl⟩

/-- A program of two words, one illegal, its first and last position and its full length. -/
theorem witness_ProgramGetsItsResponsesInOrder :
    let cws : List CommandWord := [0x080000000000000000#72, 0x010000000000000000#72]
    ({ State.reset with pending := cws.map .command } : State).pending = cws.map .command ∧ 2 ≤ cws.length ∧
      cws[0]? = some 0x080000000000000000#72 ∧ cws[1]? = some 0x010000000000000000#72 :=
  ⟨rfl, by decide, rfl, rfl⟩

theorem witness_ResetStateIsUnseeded : isSeed32 .m32Next32 = false ∧ isSeed64 .m32Next32 = false ∧
    isSeed32 (.m64Fill 0#32 0#32) = false ∧ isSeed64 (.m64Fill 0#32 0#32) = false := by decide

theorem witness_ResetClearsTheFlagsAndKeepsBuf :
    ({ seeded10 .big with pending := [.reset] } : State).pending = .reset :: [] := rfl

/-- A reset during a fill, which has a range, and during a draw, which has none. -/
theorem witness_ResetDuringACommand :
    ({ seeded10 .big with pending := [.resetDuring 0x070000000900002000#72] } : State).pending =
      .resetDuring 0x070000000900002000#72 :: [] ∧
    wordRange 0x070000000900002000#72 = (0x2000, 9) ∧ wordRange 0x060000000000000000#72 = (0, 0) := by decide

/-- Two states that differ in both registers, neither unit seeded. -/
theorem witness_UnseededRegistersNeverShow :
    (State.resetWith .big).AgreeWhereSeeded { State.resetWith .big with s32 := 5#32, s64 := 6#64 } :=
  ⟨rfl, rfl, nofun, nofun, rfl, rfl, rfl, rfl, rfl⟩

/-- A command, a seed, an illegal word and both resets: `witness_EveryCommandIsAnsweredOnce` gives their steps. -/
theorem witness_FlagsFollowTheLifeCycle : decode 0x00000000000000000A#72 = .ok (.m32Seed 10#8 0#8 0#8 0#8) ∧
    decode 0x080000000000000000#72 = .error .reservedOpcode ∧
    ({ State.resetWith .big with pending := [.command 0x00000000000000000A#72] } : State).pending =
      .command 0x00000000000000000A#72 :: [] := by decide

/-- A refusal with each of the three codes. -/
theorem witness_RefusalsChangeNothing :
    (answers (performWord 0x080000000000000000#72 (seeded10 .big)) = [] ++ [⟨.illegalCommand, 0#64⟩]) ∧
    (answers (performWord 0x010000000000000000#72 (.resetWith .big)) = [] ++ [⟨.unseeded, 0#64⟩]) ∧
    (answers (performWord 0x0300000002FFFFFFFF#72 (seeded10 .big)) = [] ++ [⟨.bufferRange, 0#64⟩]) := by decide

theorem witness_UnseededUnitsRefuseDrawsAndFills : isSeed32 .m64Next32 = false ∧ isSeed64 .m64Next32 = false ∧
    (State.resetWith .big).seeded (Instr.unit .m64Next32) = false ∧
    (seeded10 .big).seeded (Instr.unit .m64Next32) = true := by decide

/-- One byte over the top, a fill that ends at the top, and the empty fill at the last address. -/
theorem witness_FillsOutsideBufAreRefused : (seeded10 .big).seeded .m64 = true ∧
    2 ^ 32 < (0xFFFFFFFF#32).toNat + (2#32).toNat ∧ (0xFFFFFFFF#32).toNat + (1#32).toNat ≤ 2 ^ 32 ∧
    (0xFFFFFFFF#32).toNat + (0#32).toNat ≤ 2 ^ 32 := by decide

/-- Each clause, the second with a range that would be refused too. -/
theorem witness_RefusalsHaveThisPriority :
    CommandWord.illegal 0x010000000000000001#72 = true ∧
    (decode 0x03FFFFFFFFFFFFFFFF#72 = .ok (.m32Fill 0xFFFFFFFF#32 0xFFFFFFFF#32) ∧
      isSeed32 (.m32Fill 0xFFFFFFFF#32 0xFFFFFFFF#32) = false ∧
      isSeed64 (.m32Fill 0xFFFFFFFF#32 0xFFFFFFFF#32) = false ∧ (State.resetWith .big).seeded .m32 = false) ∧
    (decode 0x0300000002FFFFFFFF#72 = .ok (fillOf .m32 0xFFFFFFFF#32 2#32) ∧ (seeded10 .big).seeded .m32 = true ∧
      2 ^ 32 < (0xFFFFFFFF#32).toNat + (2#32).toNat) := by decide

/-- Each of the three cases: both seeds, and a fill that ends at the top. -/
theorem witness_AcceptedCommandsCannotFail : isSeed32 (.m32Seed 0#8 0#8 0#8 0#8) = true ∧
    isSeed64 (.m64Seed 0#8 0#8 0#8 0#8 0#8 0#8 0#8 0#8) = true ∧ (seeded10 .big).seeded .m64 = true ∧
    (Instr.fillRange (.m64Fill 0xFFFFFFF8#32 8#32)).1 + (Instr.fillRange (.m64Fill 0xFFFFFFF8#32 8#32)).2 ≤ 2 ^ 32 := by
  decide

/-- For `M32Next32DrawsOneWord` and `M32Next64DrawsTwoWords`: V32 set and clear. -/
theorem witness_M32Draws : (seeded10 .big).v32 = true ∧ (State.resetWith .big).v32 = false := by decide

/-- For `M64Next64DrawsOneWord`, `M64Next32TruncatesOneWord` and `M64Next32IsNext64Truncated`: V64 set and clear. -/
theorem witness_M64Draws : (seeded10 .big).v64 = true ∧ (State.resetWith .big).v64 = false := by decide

theorem witness_Mix32IsAPermutation : 1#32 ≠ 0#32 := by decide

theorem witness_Mix64IsAPermutation : 1#64 ≠ 0#64 := by decide

/-- A zero state, a fill that ends at the top, and its last position. -/
theorem witness_M32ZeroStateGivesZeros : ({ seeded10 .big with s32 := 0#32 } : State).v32 = true ∧
    ({ seeded10 .big with s32 := 0#32 } : State).s32 = 0#32 ∧ (0xFFFFFFF8#32).toNat + (8#32).toNat ≤ 2 ^ 32 ∧
    7 < (8#32).toNat := by decide

theorem witness_M64ZeroStateGivesZeros : ({ seeded10 .big with s64 := 0#64 } : State).v64 = true ∧
    ({ seeded10 .big with s64 := 0#64 } : State).s64 = 0#64 ∧ (0xFFFFFFF8#32).toNat + (8#32).toNat ≤ 2 ^ 32 ∧
    7 < (8#32).toNat := by decide

/-- A fill that ends at the top: its first and last position, and the address below it. -/
theorem witness_M32FillWritesItsRange : (seeded10 .big).v32 = true ∧ (0xFFFFFFF3#32).toNat + (13#32).toNat ≤ 2 ^ 32 ∧
    0 < (13#32).toNat ∧ 12 < (13#32).toNat ∧ 0xFFFFFFF2 < (0xFFFFFFF3#32).toNat ∧
    (0xFFFFFFF3#32).toNat + (13#32).toNat ≤ 0x100000000 := by decide

theorem witness_M64FillWritesItsRange : (seeded10 .big).v64 = true ∧ (0xFFFFFFF3#32).toNat + (13#32).toNat ≤ 2 ^ 32 ∧
    0 < (13#32).toNat ∧ 12 < (13#32).toNat ∧ 0xFFFFFFF2 < (0xFFFFFFF3#32).toNat ∧
    (0xFFFFFFF3#32).toNat + (13#32).toNat ≤ 0x100000000 := by decide

theorem witness_ZeroLengthFillIsANoOp : (seeded10 .big).seeded .m32 = true ∧ (State.resetWith .big).seeded .m64 = false := by
  decide

/-- A chunk and a tail that together end at the top. -/
theorem witness_FillsConcatenateAtWholeChunks : (seeded10 .big).seeded .m32 = true ∧ (8#32).toNat % 8 = 0 ∧
    (8#32).toNat + (5#32).toNat < 2 ^ 32 ∧ (0xFFFFFFF3#32).toNat + (8#32).toNat + (5#32).toNat ≤ 2 ^ 32 := by decide

/-- The last 8 bytes of BUF, and the shortest and the longest tail of a 32-bit draw. -/
theorem witness_M32FillsAgreeWithDraws : (seeded10 .big).v32 = true ∧ (0xFFFFFFF8#32).toNat + 8 ≤ 2 ^ 32 ∧
    (1 ≤ (1#32).toNat ∧ (1#32).toNat ≤ 3) ∧ (1 ≤ (3#32).toNat ∧ (3#32).toNat ≤ 3) := by decide

/-- The last 8 bytes of BUF, and the shortest and the longest of the small fills. -/
theorem witness_M64FillsAgreeWithDraws : (seeded10 .big).v64 = true ∧ (0xFFFFFFF8#32).toNat + 8 ≤ 2 ^ 32 ∧
    (1 ≤ (1#32).toNat ∧ (1#32).toNat ≤ 4) ∧ (1 ≤ (4#32).toNat ∧ (4#32).toNat ≤ 4) := by decide

/-- A write that ends at the top: its last byte, and the addresses on both sides. -/
theorem witness_MemWriteStoresItsBytes : 0xFFFFFFF8 + 8 ≤ 2 ^ 32 ∧ 7 < 8 ∧ 0xFFFFFFF7 < 0xFFFFFFF8 ∧
    0xFFFFFFF8 + 8 ≤ 0x100000000 := by decide

theorem witness_ByteSequencesRoundTrip : 255 < 2 ^ (8 * 1) ∧ 0 < 2 ^ (8 * 0) := by decide

/-- A draw, a refused fill and the other unit's seed behind the seed. -/
theorem witness_StateIsTheSeedAdvanced :
    let is := [Instr.m32Next64, .m32Fill 0xFFFFFFFF#32 2#32, .m64Seed 1#8 0#8 0#8 0#8 0#8 0#8 0#8 0#8]
    let js := [Instr.m64Next32, .m64Fill 0#32 9#32, .m32Seed 1#8 0#8 0#8 0#8]
    (∀ i ∈ is, isSeed32 i = false) ∧ (∀ i ∈ js, isSeed64 i = false) ∧
    ({ State.reset with pending := program (.m32Seed 1#8 0#8 0#8 0#8 :: is) } : State).pending =
      program (.m32Seed 1#8 0#8 0#8 0#8 :: is) ∧
    ({ State.reset with pending := program (.m64Seed 1#8 0#8 0#8 0#8 0#8 0#8 0#8 0#8 :: js) } : State).pending =
      program (.m64Seed 1#8 0#8 0#8 0#8 0#8 0#8 0#8 0#8 :: js) :=
  ⟨by decide, by decide, rfl, rfl⟩

theorem witness_UnitsAreIndependent : Instr.unit .m32Next32 = .m32 ∧ Instr.unit (.m64Fill 0#32 9#32) = .m64 := by decide

theorem witness_BufNeverInfluencesTheBlock : ∀ u base len, Instr.m32Next32 ≠ fillOf u base len := by
  intro u base len
  cases u <;> simp [fillOf]

/-- Two cores that differ in the other unit and in BUF. -/
theorem witness_EqualUnitsGiveEqualStreams :
    let is := [Instr.m64Next32, .m64Fill 0#32 9#32]
    let s := { seeded10 .big with pending := program is }
    let s' := { seeded10 .big with s32 := 5#32, buf := [(0, 1#8)], pending := program is }
    (∀ i ∈ is, i.unit = .m64) ∧ s.SameUnit .m64 s' ∧ s.byteOrder = s'.byteOrder ∧ s.pending = program is ∧
      s'.pending = program is :=
  ⟨by decide, ⟨rfl, rfl⟩, rfl, rfl, rfl⟩

theorem witness_AssemblerChecksItsNumbers : (AsmCommand.m32Seedw 4294967296).wellFormed = false ∧
    (AsmCommand.m32Seedw 4294967295).wellFormed = true := by decide

end Sys2Proof.Tests
end

section
/-! Proofs of the family 10_state. BUF goes in at one end of a command and comes out at the other (spec/10_state.md R28,
spec/20_memory.md R41): over every content `m` of BUF a command gives one and the same state `t` and puts into it `m`
itself, or, for a fill, `m` with one and the same run of bytes stored. -/

namespace Sys2Proof.Machine

@[simp] theorem State.seeded_setBuf (u : MixUnit) (s : State) (m : Memory) : (s.setBuf m).seeded u = s.seeded u := by
  cases u <;> rfl

@[simp] theorem State.filled_setBuf (u : MixUnit) (len : Nat) (s : State) (m : Memory) :
    (s.setBuf m).filled u len = (s.filled u len).setBuf m := by cases u <;> rfl

@[simp] theorem State.respond_setBuf (s : State) (m : Memory) (c : Code) (d : Word64) :
    (s.setBuf m).respond c d = (s.respond c d).setBuf m := rfl

@[simp] theorem State.refuse_setBuf (s : State) (m : Memory) (c : Code) :
    (s.setBuf m).refuse c = (s.refuse c).setBuf m := rfl

@[simp] theorem Memory.store_nil (m : Memory) (a : Nat) : Memory.store m a [] = m := rfl

/-- One run of bytes stored over two contents: an address reads the same in both, or each content keeps its own byte. -/
theorem Memory.read_store_eq_or_kept (m m' : Memory) (a : Nat) (bs : List Byte) (x : Nat) :
    Memory.read (Memory.store m a bs) x = Memory.read (Memory.store m' a bs) x ∨
      (Memory.read (Memory.store m a bs) x = Memory.read m x ∧
        Memory.read (Memory.store m' a bs) x = Memory.read m' x) := by
  by_cases h : a ≤ x ∧ x < a + bs.length
  · exact .inl (by rw [Memory.read_store, Memory.read_store, if_pos h, if_pos h])
  · exact .inr ⟨by rw [Memory.read_store, if_neg h], by rw [Memory.read_store, if_neg h]⟩

/-- R143: a guarded command whose effect `f` carries BUF along does so whether it is refused or performed. -/
theorem whenSeeded_setBuf (u : MixUnit) (f : State → State) (s : State)
    (hf : ∀ m, f (s.setBuf m) = (f s).setBuf m) :
    ∃ t : State, ∀ m, whenSeeded u (s.setBuf m) (fun s => .next (f s)) = .next (t.setBuf m) := by
  cases hs : s.seeded u with
  | false => exact ⟨s.refuse .unseeded, fun m => by simp [whenSeeded_of_unseeded, hs]⟩
  | true => exact ⟨f s, fun m => by simp [whenSeeded_of_seeded, hs, hf]⟩

/-- R28, R41: a command that is no fill carries BUF along unread and unwritten. -/
theorem exec_setBuf_of_not_fill {i : Instr} (h : ∀ u base len, i ≠ fillOf u base len) (s : State) :
    ∃ t : State, ∀ m, exec i (s.setBuf m) = .next (t.setBuf m) := by
  cases i with
  | m32Seed b0 b1 b2 b3 =>
    exact ⟨((s.setS32 (seedValue32 s.byteOrder b0 b1 b2 b3)).setV32).respond .ok 0#64, fun _ => rfl⟩
  | m64Seed b0 b1 b2 b3 b4 b5 b6 b7 =>
    exact ⟨((s.setS64 (seedValue64 s.byteOrder b0 b1 b2 b3 b4 b5 b6 b7)).setV64).respond .ok 0#64, fun _ => rfl⟩
  | m32Next32 =>
    exact whenSeeded_setBuf .m32 (fun s => (advance32 s).2.respond .ok ((advance32 s).1.setWidth 64)) s fun _ => rfl
  | m32Next64 => exact whenSeeded_setBuf .m32 (fun s => (draw64M32 s).2.respond .ok (draw64M32 s).1) s fun _ => rfl
  | m64Next32 =>
    exact whenSeeded_setBuf .m64 (fun s => (draw32M64 s).2.respond .ok ((draw32M64 s).1.setWidth 64)) s fun _ => rfl
  | m64Next64 => exact whenSeeded_setBuf .m64 (fun s => (advance64 s).2.respond .ok (advance64 s).1) s fun _ => rfl
  | m32Fill base len => exact absurd rfl (h .m32 base len)
  | m64Fill base len => exact absurd rfl (h .m64 base len)

/-- R28, R41: a fill stores one run of bytes, the same over every content of BUF: the empty one when it is refused, the
fill's image when it is performed. -/
theorem exec_fillOf_setBuf (u : MixUnit) (base len : Word32) (s : State) :
    ∃ (t : State) (bs : List Byte), ∀ m, exec (fillOf u base len) (s.setBuf m) =
      .next (t.setBuf (Memory.store m base.toNat bs)) := by
  cases hs : s.seeded u with
  | false => exact ⟨s.refuse .unseeded, [], fun m => by simp [exec_fillOf, hs]⟩
  | true =>
    cases hr : rangeOk base len with
    | false => exact ⟨s.refuse .bufferRange, [], fun m => by simp [exec_fillOf, hs, hr]⟩
    | true =>
      exact ⟨(s.filled u len.toNat).respond .ok 0#64, s.fillImage u len.toNat,
        fun m => by simp [exec_fillOf, hs, hr]⟩

/-- Settles O49: the state a command gives is named without BUF, and its BUF is the old one or the old one with a run of
bytes stored that is named without BUF too. -/
theorem bufNeverInfluencesTheBlock : Obligations.BufNeverInfluencesTheBlock := by
  intro i s m
  by_cases hfill : ∃ u base len, i = fillOf u base len
  · obtain ⟨u, base, len, rfl⟩ := hfill
    obtain ⟨t, bs, ht⟩ := exec_fillOf_setBuf u base len s
    exact ⟨t.setBuf (Memory.store s.buf base.toNat bs), Memory.store m base.toNat bs, ht s.buf, ht m,
      fun hne => absurd rfl (hne u base len), Memory.read_store_eq_or_kept s.buf m base.toNat bs⟩
  · push Not at hfill
    obtain ⟨t, ht⟩ := exec_setBuf_of_not_fill hfill s
    exact ⟨t.setBuf s.buf, m, ht s.buf, ht m, fun _ => ⟨rfl, rfl⟩, fun _ => .inr ⟨rfl, rfl⟩⟩

end Sys2Proof.Machine
end

section
/-! Proofs of the family 30_encoding. A word has a format when its opcode is one of the eight and the bits that format
gives no operand are zero (spec/30_encoding.md R62, R63). The causes of R66, the rows of R64 and the decoder of R68 are
each compared with that one condition. -/

namespace Sys2Proof

/-- R62, R63: the opcode of format S4, whose operands fill the lower half of the payload. -/
def IsFormatS4 (op : BitVec 8) : Prop := op = 0x00#8

/-- R62, R63: the opcodes of format N, which has no operand. -/
def IsFormatN (op : BitVec 8) : Prop := op = 0x01#8 ∨ op = 0x02#8 ∨ op = 0x05#8 ∨ op = 0x06#8

/-- R62, R63: the opcodes of formats F and S8, whose operands fill the payload. -/
def IsFormatFOrS8 (op : BitVec 8) : Prop := op = 0x03#8 ∨ op = 0x04#8 ∨ op = 0x07#8

/-- R63, R65: the opcode has a format, and the payload bits that format gives no operand are zero. -/
def CommandWord.HasFormat (cw : CommandWord) : Prop :=
  (IsFormatS4 (opField cw) ∧ lenField (payloadField cw) = 0#32) ∨
  (IsFormatN (opField cw) ∧ payloadField cw = 0#64) ∨
  IsFormatFOrS8 (opField cw)

/-- R62: an opcode has a reserved bit set, or is of exactly one of the formats. -/
theorem format_cases (op : BitVec 8) :
    (op.extractLsb' 3 5 ≠ 0#5 ∧ ¬IsFormatS4 op ∧ ¬IsFormatN op ∧ ¬IsFormatFOrS8 op) ∨
    (op.extractLsb' 3 5 = 0#5 ∧ IsFormatS4 op ∧ ¬IsFormatN op ∧ ¬IsFormatFOrS8 op) ∨
    (op.extractLsb' 3 5 = 0#5 ∧ ¬IsFormatS4 op ∧ IsFormatN op ∧ ¬IsFormatFOrS8 op) ∨
    (op.extractLsb' 3 5 = 0#5 ∧ ¬IsFormatS4 op ∧ ¬IsFormatN op ∧ IsFormatFOrS8 op) := by
  unfold IsFormatS4 IsFormatN IsFormatFOrS8
  revert op
  decide

/-- R66: the three causes, on the fields of the word. -/
theorem CommandWord.illegal_iff (cw : CommandWord) : CommandWord.illegal cw = true ↔
    cw.extractLsb' 67 5 ≠ 0#5 ∨ (IsFormatN (opField cw) ∧ payloadField cw ≠ 0#64) ∨
      (IsFormatS4 (opField cw) ∧ cw.extractLsb' 32 32 ≠ 0#32) := by
  simp [CommandWord.illegal, CommandWord.reservedOpcode, CommandWord.nonzeroPayloadN, CommandWord.nonzeroReservedS4,
    IsFormatS4, IsFormatN, opField, payloadField, or_assoc]

/-- R66: the illegal words are those without a format. -/
theorem CommandWord.illegal_iff_not_hasFormat (cw : CommandWord) : CommandWord.illegal cw = true ↔ ¬cw.HasFormat := by
  rw [CommandWord.illegal_iff, ← opField_reserved, ← lenField_payloadField, CommandWord.HasFormat]
  obtain ⟨hr, hS, hN, hF⟩ | ⟨hr, hS, hN, hF⟩ | ⟨hr, hS, hN, hF⟩ | ⟨hr, hS, hN, hF⟩ := format_cases (opField cw)
  all_goals simp [hr, hS, hN, hF]

/-- R61, R64: the opcode map with each `match` cut into its opcode and its zero payload. -/
theorem opcodeMap_eq : opcodeMap =
    [ ⟨"M32.SEED", 0xFFFFFFFFFF00000000#72, 0x00#8 ++ 0#64⟩,
      ⟨"M32.NEXT32", 0xFFFFFFFFFFFFFFFFFF#72, 0x01#8 ++ 0#64⟩,
      ⟨"M32.NEXT64", 0xFFFFFFFFFFFFFFFFFF#72, 0x02#8 ++ 0#64⟩,
      ⟨"M32.FILL", 0xFF0000000000000000#72, 0x03#8 ++ 0#64⟩,
      ⟨"M64.SEED", 0xFF0000000000000000#72, 0x04#8 ++ 0#64⟩,
      ⟨"M64.NEXT32", 0xFFFFFFFFFFFFFFFFFF#72, 0x05#8 ++ 0#64⟩,
      ⟨"M64.NEXT64", 0xFFFFFFFFFFFFFFFFFF#72, 0x06#8 ++ 0#64⟩,
      ⟨"M64.FILL", 0xFF0000000000000000#72, 0x07#8 ++ 0#64⟩ ] := by decide

/-- R64: the words that select a row of the opcode map are those with a format. -/
theorem exists_row_iff_hasFormat (cw : CommandWord) :
    (∃ row ∈ opcodeMap, cw &&& row.mask = row.value) ↔ cw.HasFormat := by
  simp only [opcodeMap_eq, List.mem_cons, List.not_mem_nil, or_false, exists_eq_or_imp, exists_eq_left,
    select_formatS4, select_formatN, select_opcode, CommandWord.HasFormat, IsFormatS4, IsFormatN, IsFormatFOrS8]
  tauto

/-- R68: the decoder takes a word of format N for its command exactly when the payload is zero. -/
theorem decodeN_ok_iff (i : Instr) (p : Word64) : (∃ j, decodeN i p = .ok j) ↔ p = 0#64 := by
  by_cases h : p = 0#64 <;> simp [decodeN, h]

/-- R68: the words the decoder takes for commands are those with a format. -/
theorem decode_ok_iff_hasFormat (cw : CommandWord) : (∃ i, decode cw = .ok i) ↔ cw.HasFormat := by
  rw [CommandWord.HasFormat, IsFormatS4, IsFormatN, IsFormatFOrS8]
  rcases opcode_cases (opField cw) with h | h | h | h | h | h | h | h | ⟨hge, hres⟩
  · by_cases hp : lenField (payloadField cw) = 0#32 <;> simp [decode_op0 h, h, hp]
  · simp [decode_op1 h, decodeN_ok_iff, h]
  · simp [decode_op2 h, decodeN_ok_iff, h]
  · simp [decode_op3 h, h]
  · simp [decode_op4 h, h]
  · simp [decode_op5 h, decodeN_ok_iff, h]
  · simp [decode_op6 h, decodeN_ok_iff, h]
  · simp [decode_op7 h, h]
  · have hill : CommandWord.illegal cw = true := (CommandWord.illegal_iff cw).2 (.inl (opField_reserved cw ▸ hres))
    exact iff_of_false (by simp [decode_high hge]) ((CommandWord.illegal_iff_not_hasFormat cw).1 hill)

end Sys2Proof

namespace Sys2Proof.Machine

/-- Settles O4: the words of (a), (b), (c), the words without a row and the words the decoder refuses are all the words
without a format. -/
theorem illegalWordsAreExactlyThese : Obligations.IllegalWordsAreExactlyThese := by
  intro cw s op illegal
  have hill : illegal ↔ ¬cw.HasFormat :=
    (CommandWord.illegal_iff cw).symm.trans (CommandWord.illegal_iff_not_hasFormat cw)
  refine ⟨fun h => ?refused, ?noRow, fun h => ?command, fun h => ?everyWord⟩
  case refused =>
    cases hd : decode cw with
    | error e => exact performWord_of_error hd s
    | ok i => exact absurd ((decode_ok_iff_hasFormat cw).1 ⟨i, hd⟩) (hill.1 h)
  case noRow =>
    rw [hill, ← exists_row_iff_hasFormat]
    simp only [not_exists, not_and, ne_eq]
  case command =>
    obtain ⟨i, hi⟩ := (decode_ok_iff_hasFormat cw).2 (not_not.1 (mt hill.2 h))
    exact ⟨i, hi, performWord_of_ok hi s⟩
  case everyWord => exact fun hbad => hill.1 hbad (.inr (.inr h))

end Sys2Proof.Machine
end

section
/-! Proofs of the family 40_mixer32. The operand of a seed command is a list of bytes in two readings: the integer it
denotes (spec/00_scope.md R10, spec/40_mixer32.md R83), which is its bytes put together, and the lanes of a payload
(spec/30_encoding.md R63), which are its bytes taken apart. -/

namespace Sys2Proof

/-- R63: above the lowest byte of a word, a field of the word is a field of the rest. -/
theorem extractLsb'_append_byte {n : Nat} (x : BitVec n) (b : Byte) (k len : Nat) :
    (x ++ b).extractLsb' (k + 8) len = x.extractLsb' k len := by
  rw [BitVec.extractLsb'_append_eq_of_le (Nat.le_add_left 8 k), Nat.add_sub_cancel]

/-- R69: the word of `M32.SEED` decodes to the command with its seed bytes. -/
theorem decode_encode_m32Seed (b0 b1 b2 b3 : Byte) :
    decode (encode (.m32Seed b0 b1 b2 b3)) = .ok (.m32Seed b0 b1 b2 b3) := by
  have hlen : lenField (Instr.m32Seed b0 b1 b2 b3).payload = 0#32 := by
    simp only [lenField, Instr.payload, extractLsb'_append_byte _ _ 24, extractLsb'_append_byte _ _ 16,
      extractLsb'_append_byte _ _ 8, extractLsb'_append_byte _ _ 0, BitVec.extractLsb'_eq_self]
  have h0 : seedLane (Instr.m32Seed b0 b1 b2 b3).payload 0 = b0 := extractLsb'_append_low _ b0
  have h1 : seedLane (Instr.m32Seed b0 b1 b2 b3).payload 1 = b1 :=
    (extractLsb'_append_byte _ b0 0 8).trans (extractLsb'_append_low _ b1)
  have h2 : seedLane (Instr.m32Seed b0 b1 b2 b3).payload 2 = b2 :=
    (extractLsb'_append_byte _ b0 8 8).trans <| (extractLsb'_append_byte _ b1 0 8).trans (extractLsb'_append_low _ b2)
  have h3 : seedLane (Instr.m32Seed b0 b1 b2 b3).payload 3 = b3 :=
    (extractLsb'_append_byte _ b0 16 8).trans <| (extractLsb'_append_byte _ b1 8 8).trans <|
      (extractLsb'_append_byte _ b2 0 8).trans (extractLsb'_append_low _ b3)
  rw [decode_op0 (opField_encode _), payloadField_encode, if_pos hlen, h0, h1, h2, h3]

end Sys2Proof

namespace Sys2Proof.Machine

/-- R10: the first byte of a little-endian sequence is the lowest of the word the sequence denotes. -/
theorem ofNat_fromBytesLittle_cons (n : Nat) (b : Byte) (bs : List Byte) :
    BitVec.ofNat (n + 8) (fromBytesLittle (b :: bs)) = BitVec.ofNat n (fromBytesLittle bs) ++ b := by
  apply BitVec.eq_of_toNat_eq
  have hb := b.isLt
  rw [BitVec.toNat_append, ← Nat.shiftLeft_add_eq_or_of_lt hb, Nat.shiftLeft_eq, BitVec.toNat_ofNat, BitVec.toNat_ofNat,
    fromBytesLittle, Nat.add_comm n 8, Nat.pow_add, Nat.mod_mul,
    show (b.toNat + 256 * fromBytesLittle bs) / 2 ^ 8 = fromBytesLittle bs by omega]
  omega

/-- R10: one byte denotes itself. -/
theorem ofNat_fromBytesLittle_singleton (b : Byte) : BitVec.ofNat 8 (fromBytesLittle [b]) = b := by
  simp [fromBytesLittle]

/-- R83, R10: the word four bytes denote in little-endian order. -/
theorem ofNat_fromBytesLittle_four (b0 b1 b2 b3 : Byte) :
    BitVec.ofNat 32 (fromBytesLittle [b0, b1, b2, b3]) = b3 ++ b2 ++ b1 ++ b0 := by
  rw [ofNat_fromBytesLittle_cons 24, ofNat_fromBytesLittle_cons 16, ofNat_fromBytesLittle_cons 8,
    ofNat_fromBytesLittle_singleton]

/-- R83: the seed is its bytes put together, the last one highest in little-endian and the first one highest in
big-endian order. -/
theorem seedValue32_eq (bo : ByteOrder) (b0 b1 b2 b3 : Byte) :
    seedValue32 bo b0 b1 b2 b3 =
      match bo with
      | .little => b3 ++ b2 ++ b1 ++ b0
      | .big => b0 ++ b1 ++ b2 ++ b3 := by
  cases bo with
  | little => exact ofNat_fromBytesLittle_four b0 b1 b2 b3
  | big => exact ofNat_fromBytesLittle_four b3 b2 b1 b0

/-- Settles O27: the seed value is the bytes put together, and the word of the command decodes to it. -/
theorem m32SeedSetsTheState : Obligations.M32SeedSetsTheState := by
  intro b0 b1 b2 b3 s
  refine ⟨?effect, opField_encode (.m32Seed b0 b1 b2 b3), performWord_of_ok (decode_encode_m32Seed b0 b1 b2 b3) s⟩
  case effect =>
    rw [exec, execM32Seed, seedValue32_eq]
    rfl

/-- R81: the order of the factors does not matter: the model writes each constant first. -/
theorem mix32_eq_stages (s : Word32) : mix32 s = rotl32 (s * mix32C1) mix32Rot * mix32C2 := by
  rw [mix32, BitVec.mul_comm mix32C1, BitVec.mul_comm mix32C2]

/-- Settles O26: the stages, and the worked example of R81 by evaluation. -/
theorem mix32IsItsThreeStages : Obligations.Mix32IsItsThreeStages :=
  ⟨mix32_eq_stages, by decide⟩

/-- Settles O28: the command on a seeded and on an unseeded unit, and its one word. -/
theorem m32Next32DrawsOneWord : Obligations.M32Next32DrawsOneWord := fun s =>
  ⟨execM32Next32_seeded, fun h => exec_unseeded .m32Next32 h rfl rfl, performWord_of_ok (by decide) s⟩

end Sys2Proof.Machine
end

section
/-! Proofs of the family 41_mixer64. A seed of eight bytes has the two readings of a seed of four
(spec/30_encoding.md R63, spec/41_mixer64.md R103). A xor-shift stage is seen through a field of its result. -/

namespace Sys2Proof

/-- R9: a field of a word shifted right is the field of the word that stands higher by the shift. -/
theorem extractLsb'_ushiftRight {w : Nat} (x : BitVec w) (n start len : Nat) :
    (x >>> n).extractLsb' start len = x.extractLsb' (n + start) len := by
  apply BitVec.eq_of_getLsbD_eq
  intro i _
  simp only [BitVec.getLsbD_extractLsb', BitVec.getLsbD_ushiftRight, Nat.add_assoc]

/-- R9: above the top of a word there are only zeros. -/
theorem extractLsb'_of_width_le {w start : Nat} {x : BitVec w} (h : w ≤ start) (len : Nat) :
    x.extractLsb' start len = 0#len := by
  apply BitVec.eq_of_getLsbD_eq
  intro i _
  rw [BitVec.getLsbD_extractLsb', BitVec.getLsbD_of_ge x _ (by omega), Bool.and_false, BitVec.getLsbD_zero]

/-- R63: the lanes of a payload of eight bytes are its bytes, lane 0 the lowest: each byte put below moves the
lanes above it up by one. -/
theorem seedLanes_of_bytes (b0 b1 b2 b3 b4 b5 b6 b7 : Byte) :
    [0, 1, 2, 3, 4, 5, 6, 7].map (seedLane (b7 ++ b6 ++ b5 ++ b4 ++ b3 ++ b2 ++ b1 ++ b0)) =
      [b0, b1, b2, b3, b4, b5, b6, b7] := by
  simp [seedLane, extractLsb'_append_byte _ _ 0, extractLsb'_append_byte _ _ 8,
    extractLsb'_append_byte _ _ 16, extractLsb'_append_byte _ _ 24, extractLsb'_append_byte _ _ 32,
    extractLsb'_append_byte _ _ 40, extractLsb'_append_byte _ _ 48, extractLsb'_append_low (n := 8)]

/-- R69: the word of `M64.SEED` decodes to the command with its seed bytes. -/
theorem decode_encode_m64Seed (b0 b1 b2 b3 b4 b5 b6 b7 : Byte) :
    decode (encode (.m64Seed b0 b1 b2 b3 b4 b5 b6 b7)) = .ok (.m64Seed b0 b1 b2 b3 b4 b5 b6 b7) := by
  have hlanes := seedLanes_of_bytes b0 b1 b2 b3 b4 b5 b6 b7
  simp only [List.map_cons, List.map_nil, List.cons.injEq, and_true] at hlanes
  obtain ⟨h0, h1, h2, h3, h4, h5, h6, h7⟩ := hlanes
  rw [decode_op4 (opField_encode _), payloadField_encode, Instr.payload, h0, h1, h2, h3, h4, h5, h6, h7]

end Sys2Proof

namespace Sys2Proof.Machine

/-- R103, R10: the word eight bytes denote in little-endian order. -/
theorem ofNat_fromBytesLittle_eight (b0 b1 b2 b3 b4 b5 b6 b7 : Byte) :
    BitVec.ofNat 64 (fromBytesLittle [b0, b1, b2, b3, b4, b5, b6, b7]) =
      b7 ++ b6 ++ b5 ++ b4 ++ b3 ++ b2 ++ b1 ++ b0 := by
  rw [ofNat_fromBytesLittle_cons 56, ofNat_fromBytesLittle_cons 48, ofNat_fromBytesLittle_cons 40,
    ofNat_fromBytesLittle_cons 32, ofNat_fromBytesLittle_four]

/-- R103: the seed is its bytes put together, the last one highest in little-endian and the first one highest in
big-endian order. -/
theorem seedValue64_eq (bo : ByteOrder) (b0 b1 b2 b3 b4 b5 b6 b7 : Byte) :
    seedValue64 bo b0 b1 b2 b3 b4 b5 b6 b7 =
      match bo with
      | .little => b7 ++ b6 ++ b5 ++ b4 ++ b3 ++ b2 ++ b1 ++ b0
      | .big => b0 ++ b1 ++ b2 ++ b3 ++ b4 ++ b5 ++ b6 ++ b7 := by
  cases bo with
  | little => exact ofNat_fromBytesLittle_eight b0 b1 b2 b3 b4 b5 b6 b7
  | big => exact ofNat_fromBytesLittle_eight b7 b6 b5 b4 b3 b2 b1 b0

/-- Settles O33: the seed value is the bytes put together, and the word of the command decodes to it. -/
theorem m64SeedSetsTheState : Obligations.M64SeedSetsTheState := by
  intro b0 b1 b2 b3 b4 b5 b6 b7 s
  refine ⟨?effect, opField_encode (.m64Seed b0 b1 b2 b3 b4 b5 b6 b7),
    performWord_of_ok (decode_encode_m64Seed b0 b1 b2 b3 b4 b5 b6 b7) s⟩
  case effect =>
    rw [exec, execM64Seed, seedValue64_eq]
    rfl

/-- R101: the model writes the constant of each product first. -/
theorem mix64_eq_stages (s : Word64) :
    mix64 s = xorShift (xorShift (xorShift s * mix64K1) * mix64K2) := by
  rw [mix64, BitVec.mul_comm mix64K1, BitVec.mul_comm mix64K2]

/-- R101: a field of the result of a xor-shift is that field of the operand xor the one 33 bits above it. -/
theorem extractLsb'_xorShift (k : Word64) (start len : Nat) :
    (xorShift k).extractLsb' start len = k.extractLsb' start len ^^^ k.extractLsb' (33 + start) len := by
  rw [xorShift, BitVec.extractLsb'_xor, extractLsb'_ushiftRight, mix64Shift]

/-- Settles O32: the stages, a xor-shift on its two fields, and the worked example of R101 by evaluation. -/
theorem mix64IsItsFiveStages : Obligations.Mix64IsItsFiveStages := by
  refine ⟨mix64_eq_stages, fun k => ⟨?top, extractLsb'_xorShift k 0 31⟩, by decide⟩
  case top =>
    rw [extractLsb'_xorShift, extractLsb'_of_width_le (show 64 ≤ 33 + 31 by decide), BitVec.xor_zero]

/-- Settles O34: the command on a seeded and on an unseeded unit, and its one word. -/
theorem m64Next64DrawsOneWord : Obligations.M64Next64DrawsOneWord := fun s =>
  ⟨execM64Next64_seeded, fun h => exec_unseeded .m64Next64 h rfl rfl, performWord_of_ok (by decide) s⟩

/-- Settles O35: the command on a seeded and on an unseeded unit, and its one word. -/
theorem m64Next32TruncatesOneWord : Obligations.M64Next32TruncatesOneWord := fun s =>
  ⟨execM64Next32_seeded, fun h => exec_unseeded .m64Next32 h rfl rfl, performWord_of_ok (by decide) s⟩

end Sys2Proof.Machine
end

section
/-! Proofs of the family 42_fill_bytes. The one equation of a fill (`exec_fillOf`) taken apart into its three outcomes, and
the accepted fill of length 0, whose range passes for every BASE (spec/42_fill_bytes.md R121, R128). -/

namespace Sys2Proof.Machine

/-- R143: a fill on an unseeded unit is refused, whatever its range. -/
theorem exec_fillOf_unseeded {u : MixUnit} {s : State} (hs : s.seeded u = false) (base len : Word32) :
    exec (fillOf u base len) s = .next (s.refuse .unseeded) := by
  rw [exec_fillOf, hs, if_neg Bool.false_ne_true]

/-- R144: a fill on a seeded unit whose range leaves BUF is refused. -/
theorem exec_fillOf_outOfRange {u : MixUnit} {base len : Word32} {s : State} (hs : s.seeded u = true)
    (hr : bufSize < base.toNat + len.toNat) : exec (fillOf u base len) s = .next (s.refuse .bufferRange) := by
  rw [exec_fillOf, if_pos hs, rangeOk_eq_false_iff.mpr hr, if_neg Bool.false_ne_true]

/-- R126, R127: a fill on a seeded unit whose range lies in BUF writes its bytes, advances its unit and answers
(OK, 0). -/
theorem exec_fillOf_inRange {u : MixUnit} {base len : Word32} {s : State} (hs : s.seeded u = true)
    (hr : base.toNat + len.toNat ≤ bufSize) :
    exec (fillOf u base len) s = .next (((s.filled u len.toNat).setBuf
      (Memory.store s.buf base.toNat (s.fillImage u len.toNat))).respond .ok 0#64) := by
  rw [exec_fillOf, if_pos hs, if_pos (rangeOk_iff.mpr hr)]

@[simp] theorem State.filled_responses (u : MixUnit) (len : Nat) (s : State) :
    (s.filled u len).responses = s.responses := by cases u <;> rfl

/-- R125: a fill of no bytes advances its unit by no draw. -/
@[simp] theorem State.filled_zero (u : MixUnit) (s : State) : s.filled u 0 = s := by cases u <;> rfl

/-- R122: a fill of no bytes has no byte to write. -/
@[simp] theorem State.fillImage_zero (u : MixUnit) (s : State) : s.fillImage u 0 = [] := rfl

@[simp] theorem State.setBuf_buf_self (s : State) : s.setBuf s.buf = s := rfl

/-- R121: the empty range lies in BUF at every BASE. -/
theorem add_zero_le_bufSize (base : Word32) : base.toNat + (0#32).toNat ≤ bufSize := base.isLt.le

/-- R128: a fill of no bytes on a seeded unit only answers (OK, 0). -/
theorem exec_fillOf_zero {u : MixUnit} {s : State} (hs : s.seeded u = true) (base : Word32) :
    exec (fillOf u base 0#32) s = .next (s.respond .ok 0#64) := by
  rw [exec_fillOf_inRange hs (add_zero_le_bufSize base), BitVec.toNat_ofNat, Nat.zero_mod, State.filled_zero,
    State.fillImage_zero, Memory.store_nil, State.setBuf_buf_self]

/-- Settles O22: a range outside BUF is refused before the fill begins, a range inside it is filled, and the empty range
is inside BUF at every BASE. -/
theorem fillsOutsideBufAreRefused : Obligations.FillsOutsideBufAreRefused := by
  intro u base len s hs
  refine ⟨exec_fillOf_outOfRange hs, fun hr => ⟨_, exec_fillOf_inRange hs hr, ?_⟩, ?_⟩
  · rw [State.respond_responses, State.setBuf_responses, State.filled_responses]
  · rintro rfl
    exact ⟨_, exec_fillOf_zero hs base, State.respond_responses s .ok 0#64⟩

/-- Settles O41: the fill of no bytes on a seeded and on an unseeded unit. -/
theorem zeroLengthFillIsANoOp : Obligations.ZeroLengthFillIsANoOp := fun _ base _ =>
  ⟨fun hs => exec_fillOf_zero hs base, fun hs => exec_fillOf_unseeded hs base 0#32⟩

end Sys2Proof.Machine
end

section
/-! Proofs of the family 60_exceptions. A command is either refused, and then its whole effect is one `State.refuse`
(spec/60_exceptions.md R140), or accepted, and then it answers OK (R141). A seed is always accepted; for a draw or fill
it is decided by its own unit's flag and then by its range (R143, R144, R146). -/

namespace Sys2Proof.Machine

/-- R141: the outcome `o` of a command run from `s` is a next state whose new response is OK, with some data. -/
def CompletesOk (o : Result) (s : State) : Prop := ∃ t d, o = .next t ∧ t.responses = s.responses ++ [⟨.ok, d⟩]

/-- R84, R104, R141: a seed command completes with OK whatever the unit's condition. -/
theorem exec_seed_completesOk {i : Instr} (h : isSeed32 i = true ∨ isSeed64 i = true) (s : State) :
    CompletesOk (exec i s) s := by
  cases i with
  | m32Seed b0 b1 b2 b3 => exact ⟨_, _, rfl, rfl⟩
  | m64Seed b0 b1 b2 b3 b4 b5 b6 b7 => exact ⟨_, _, rfl, rfl⟩
  | m32Next32 | m32Next64 | m32Fill | m64Next32 | m64Next64 | m64Fill => simp [isSeed32, isSeed64] at h

/-- R126, R127, R141: a fill on a seeded unit whose range lies in BUF completes with OK. -/
theorem exec_fillOf_completesOk {u : MixUnit} {base len : Word32} {s : State} (hs : s.seeded u = true)
    (hr : base.toNat + len.toNat ≤ bufSize) : CompletesOk (exec (fillOf u base len) s) s :=
  ⟨_, _, exec_fillOf_inRange hs hr, by rw [State.respond_responses, State.setBuf_responses, State.filled_responses]⟩

/-- R141: a command on a seeded unit whose range, if it names one, lies in BUF completes with OK. -/
theorem exec_seeded_completesOk {i : Instr} {s : State} (hs : s.seeded i.unit = true)
    (hr : (Instr.fillRange i).1 + (Instr.fillRange i).2 ≤ bufSize) : CompletesOk (exec i s) s := by
  cases i with
  | m32Seed => exact exec_seed_completesOk (.inl rfl) s
  | m64Seed => exact exec_seed_completesOk (.inr rfl) s
  | m32Next32 => exact ⟨_, _, execM32Next32_seeded hs, rfl⟩
  | m32Next64 => exact ⟨_, _, execM32Next64_seeded hs, rfl⟩
  | m64Next32 => exact ⟨_, _, execM64Next32_seeded hs, rfl⟩
  | m64Next64 => exact ⟨_, _, execM64Next64_seeded hs, rfl⟩
  | m32Fill base len => exact exec_fillOf_completesOk (u := .m32) hs hr
  | m64Fill base len => exact exec_fillOf_completesOk (u := .m64) hs hr

/-- R41: only a fill names a range that is not empty. -/
theorem exists_fillOf_of_fillRange_pos {i : Instr} (h : 0 < (Instr.fillRange i).1 + (Instr.fillRange i).2) :
    ∃ u base len, i = fillOf u base len := by
  cases i with
  | m32Fill base len => exact ⟨.m32, base, len, rfl⟩
  | m64Fill base len => exact ⟨.m64, base, len, rfl⟩
  | m32Seed | m32Next32 | m32Next64 | m64Seed | m64Next32 | m64Next64 => simp [Instr.fillRange] at h

@[simp] theorem fillOf_unit (u : MixUnit) (base len : Word32) : (fillOf u base len).unit = u := by cases u <;> rfl

@[simp] theorem fillOf_fillRange (u : MixUnit) (base len : Word32) :
    Instr.fillRange (fillOf u base len) = (base.toNat, len.toNat) := by cases u <;> rfl

/-- R143, R144: a command on a seeded unit is refused with `BufferRange` or completes with OK. -/
theorem exec_seeded_cases {i : Instr} {s : State} (hs : s.seeded i.unit = true) :
    exec i s = .next (s.refuse .bufferRange) ∨ CompletesOk (exec i s) s := by
  rcases Nat.lt_or_ge bufSize ((Instr.fillRange i).1 + (Instr.fillRange i).2) with hout | hin
  · obtain ⟨u, base, len, rfl⟩ := exists_fillOf_of_fillRange_pos (Nat.zero_lt_of_lt hout)
    rw [fillOf_unit] at hs
    rw [fillOf_fillRange] at hout
    exact .inl (exec_fillOf_outOfRange hs hout)
  · exact .inr (exec_seeded_completesOk hs hin)

/-- R140, R141: a command is refused, or completes with OK. -/
theorem exec_refused_or_completesOk (i : Instr) (s : State) :
    (∃ c, exec i s = .next (s.refuse c)) ∨ CompletesOk (exec i s) s := by
  by_cases hseed : isSeed32 i = true ∨ isSeed64 i = true
  · exact .inr (exec_seed_completesOk hseed s)
  · obtain ⟨h32, h64⟩ : isSeed32 i = false ∧ isSeed64 i = false := by simpa using hseed
    cases hs : s.seeded i.unit with
    | false => exact .inl ⟨.unseeded, exec_unseeded i hs h32 h64⟩
    | true => exact (exec_seeded_cases hs).imp_left fun h => ⟨.bufferRange, h⟩

/-- R140, R141, R142: a command word is refused, or completes with OK. -/
theorem performWord_refused_or_completesOk (cw : CommandWord) (s : State) :
    (∃ c, performWord cw s = .next (s.refuse c)) ∨ CompletesOk (performWord cw s) s := by
  cases hd : decode cw with
  | error e => exact .inl ⟨.illegalCommand, performWord_of_error hd s⟩
  | ok i =>
    rw [performWord_of_ok hd]
    exact exec_refused_or_completesOk i s

/-- Settles O20: a word whose response is not OK did not complete with OK, so it was refused. -/
theorem refusalsChangeNothing : Obligations.RefusalsChangeNothing := by
  intro cw s t c d hrun hresp hc
  obtain ⟨c', h⟩ | ⟨t', d', h, hok⟩ := performWord_refused_or_completesOk cw s
  · obtain rfl : s.refuse c' = t := by simpa [h] using hrun
    obtain ⟨rfl, -⟩ : c' = c ∧ 0#64 = d := by simpa using hresp
    rfl
  · obtain rfl : t' = t := by simpa [h] using hrun
    obtain ⟨rfl, -⟩ : Code.ok = c ∧ d' = d := by simpa [hok] using hresp
    exact absurd rfl hc

/-- Settles O21: on an unseeded unit the one refusal, on a seeded unit `BufferRange` or OK. -/
theorem unseededUnitsRefuseDrawsAndFills : Obligations.UnseededUnitsRefuseDrawsAndFills := by
  intro i s h32 h64
  refine ⟨fun hs => exec_unseeded i hs h32 h64, fun hs => ?_⟩
  obtain h | ⟨t, d, h, hok⟩ := exec_seeded_cases hs
  · exact ⟨_, _, _, h, State.refuse_responses s .bufferRange, by decide⟩
  · exact ⟨t, _, d, h, hok, by decide⟩

/-- R142: an illegal word is refused whatever the flags. -/
theorem performWord_of_illegal {cw : CommandWord} (h : CommandWord.illegal cw = true) (s : State) :
    performWord cw s = .next (s.refuse .illegalCommand) :=
  (illegalWordsAreExactlyThese cw s).1 ((CommandWord.illegal_iff cw).1 h)

/-- Settles O23: the decoder's refusal, then the flag's, then the range's. -/
theorem refusalsHaveThisPriority : Obligations.RefusalsHaveThisPriority := fun _ s =>
  ⟨fun hill => performWord_of_illegal hill s,
   fun i hd h32 h64 hs => (performWord_of_ok hd s).trans (exec_unseeded i hs h32 h64),
   fun _ _ _ hd hs hout => (performWord_of_ok hd s).trans (exec_fillOf_outOfRange hs hout)⟩

/-- Settles O24: a seed on any unit, and any command on a seeded unit. -/
theorem acceptedCommandsCannotFail : Obligations.AcceptedCommandsCannotFail := by
  rintro i s (h32 | h64 | ⟨hs, hr⟩)
  · exact exec_seed_completesOk (.inl h32) s
  · exact exec_seed_completesOk (.inr h64) s
  · exact exec_seeded_completesOk hs hr

end Sys2Proof.Machine
end

section
/-! Decoding and encoding of the whole command set. The decoder and the encoder are inverse to each other
(spec/30_encoding.md R69): a payload is its fields put together again, and the fields of a payload put together are its
operands. A row of the opcode map then selects the words of its command and no others (R64). -/

namespace Sys2Proof

/-- R69: the words of the commands without operands, of the fills and of the seeds. -/
theorem decode_encode (i : Instr) : decode (encode i) = .ok i := by
  cases i with
  | m32Seed b0 b1 b2 b3 => exact decode_encode_m32Seed b0 b1 b2 b3
  | m64Seed b0 b1 b2 b3 b4 b5 b6 b7 => exact decode_encode_m64Seed b0 b1 b2 b3 b4 b5 b6 b7
  | m32Fill base len =>
    rw [decode_op3 (opField_encode _), payloadField_encode, baseField, lenField, Instr.payload,
      BitVec.extractLsb'_append_eq_right, BitVec.extractLsb'_append_eq_left]
  | m64Fill base len =>
    rw [decode_op7 (opField_encode _), payloadField_encode, baseField, lenField, Instr.payload,
      BitVec.extractLsb'_append_eq_right, BitVec.extractLsb'_append_eq_left]
  | m32Next32 | m32Next64 | m64Next32 | m64Next64 => decide

/-- Settles O2. -/
theorem decodeOfEncodeIsTheCommand : Obligations.DecodeOfEncodeIsTheCommand := decode_encode

/-- R63: a payload is its eight lanes put together, lane 7 highest. -/
theorem payload_eq_lanes (p : Word64) :
    (seedLane p 7 ++ seedLane p 6 ++ seedLane p 5 ++ seedLane p 4 ++ seedLane p 3 ++ seedLane p 2 ++ seedLane p 1 ++
      seedLane p 0 : Word64) = p := by
  simp only [seedLane]
  iterate 7 rw [BitVec.extractLsb'_append_extractLsb'_eq_extractLsb' (by decide)]
  exact BitVec.extractLsb'_eq_self

/-- R63: the half of a payload that format S4 reserves, put above its four lanes, gives the payload. -/
theorem payload_eq_reserved_lanes (p : Word64) :
    (lenField p ++ seedLane p 3 ++ seedLane p 2 ++ seedLane p 1 ++ seedLane p 0 : Word64) = p := by
  simp only [seedLane, lenField]
  iterate 4 rw [BitVec.extractLsb'_append_extractLsb'_eq_extractLsb' (by decide)]
  exact BitVec.extractLsb'_eq_self

/-- R68: a word of format N that decodes, decodes to its own command, and its payload is zero. -/
theorem decodeN_eq_ok {i j : Instr} {p : Word64} (h : decodeN i p = .ok j) : j = i ∧ p = 0#64 := by
  rw [decodeN] at h
  split at h
  · next hp => exact ⟨(Except.ok.inj h).symm, hp⟩
  · cases h

/-- R63, R68: a word of opcode 0x00 that decodes has its reserved bits zero. -/
theorem lenField_eq_zero_of_decode {cw : CommandWord} {i : Instr} (hop : opField cw = 0x00#8)
    (h : decode cw = .ok i) : lenField (payloadField cw) = 0#32 := by
  rw [decode_op0 hop] at h
  split at h
  · next hres => exact hres
  · cases h

/-- R61, R69: a command with the opcode and the payload of a word is encoded as that word. -/
theorem encode_eq_of_fields {i : Instr} {cw : CommandWord} (hop : opField cw = i.opcode)
    (hp : payloadField cw = i.payload) : encode i = cw := by
  rw [encode, ← hop, ← hp, word_eq_fields]

/-- R69: a word of format N that decodes is the word of its command. -/
theorem encode_of_decodeN {i j : Instr} {cw : CommandWord} (hop : opField cw = i.opcode) (hi : i.payload = 0#64)
    (h : decodeN i (payloadField cw) = .ok j) : encode j = cw := by
  obtain ⟨rfl, hp⟩ := decodeN_eq_ok h
  exact encode_eq_of_fields hop (hp.trans hi.symm)

/-- R69: a legal word is the word of its command, one opcode at a time. -/
theorem encode_of_decode {cw : CommandWord} {i : Instr} (h : decode cw = .ok i) : encode i = cw := by
  rcases opcode_cases (opField cw) with hop | hop | hop | hop | hop | hop | hop | hop | ⟨hop, -⟩
  · have hres := lenField_eq_zero_of_decode hop h
    rw [decode_op0 hop, if_pos hres] at h
    obtain rfl := Except.ok.inj h
    exact encode_eq_of_fields hop (by rw [Instr.payload, ← hres, payload_eq_reserved_lanes])
  · exact encode_of_decodeN (i := .m32Next32) hop rfl (decode_op1 hop ▸ h)
  · exact encode_of_decodeN (i := .m32Next64) hop rfl (decode_op2 hop ▸ h)
  · obtain rfl := Except.ok.inj (decode_op3 hop ▸ h)
    exact encode_eq_of_fields hop (payload_eq_fields _).symm
  · obtain rfl := Except.ok.inj (decode_op4 hop ▸ h)
    exact encode_eq_of_fields hop (payload_eq_lanes _).symm
  · exact encode_of_decodeN (i := .m64Next32) hop rfl (decode_op5 hop ▸ h)
  · exact encode_of_decodeN (i := .m64Next64) hop rfl (decode_op6 hop ▸ h)
  · obtain rfl := Except.ok.inj (decode_op7 hop ▸ h)
    exact encode_eq_of_fields hop (payload_eq_fields _).symm
  · rw [decode_high hop] at h
    cases h

/-- Settles O3. -/
theorem encodeOfDecodeIsTheWord : Obligations.EncodeOfDecodeIsTheWord := fun _ _ => encode_of_decode

/-- R64: the word of a command selects the row of its mnemonic. -/
theorem exists_row_of_encode (i : Instr) :
    ∃ row ∈ opcodeMap, row.mnemonic = i.mnemonic ∧ encode i &&& row.mask = row.value := by
  have hop : opField (encode i) = i.opcode := opField_encode i
  have hp : payloadField (encode i) = i.payload := payloadField_encode i
  rw [opcodeMap_eq]
  cases i with
  | m32Seed =>
    have hres := lenField_eq_zero_of_decode hop (decode_encode _)
    exact ⟨_, List.getElem_mem (n := 0) (by decide), rfl, (select_formatS4 _).2 ⟨hop, hres⟩⟩
  | m32Next32 => exact ⟨_, List.getElem_mem (n := 1) (by decide), rfl, (select_formatN _).2 ⟨hop, hp⟩⟩
  | m32Next64 => exact ⟨_, List.getElem_mem (n := 2) (by decide), rfl, (select_formatN _).2 ⟨hop, hp⟩⟩
  | m32Fill => exact ⟨_, List.getElem_mem (n := 3) (by decide), rfl, (select_opcode _).2 hop⟩
  | m64Seed => exact ⟨_, List.getElem_mem (n := 4) (by decide), rfl, (select_opcode _).2 hop⟩
  | m64Next32 => exact ⟨_, List.getElem_mem (n := 5) (by decide), rfl, (select_formatN _).2 ⟨hop, hp⟩⟩
  | m64Next64 => exact ⟨_, List.getElem_mem (n := 6) (by decide), rfl, (select_formatN _).2 ⟨hop, hp⟩⟩
  | m64Fill => exact ⟨_, List.getElem_mem (n := 7) (by decide), rfl, (select_opcode _).2 hop⟩

/-- R68: a word of format N whose payload is zero decodes to its command. -/
theorem decodeN_zero {i : Instr} {p : Word64} (h : p = 0#64) : decodeN i p = .ok i := if_pos h

/-- R64: a word that selects a row decodes to a command with the row's mnemonic. -/
theorem exists_decode_of_row {cw : CommandWord} {row : OpcodeRow} (hrow : row ∈ opcodeMap)
    (h : cw &&& row.mask = row.value) : ∃ i, decode cw = .ok i ∧ i.mnemonic = row.mnemonic := by
  simp only [opcodeMap_eq, List.mem_cons, List.not_mem_nil, or_false] at hrow
  rcases hrow with rfl | rfl | rfl | rfl | rfl | rfl | rfl | rfl
  · obtain ⟨hop, hres⟩ := (select_formatS4 _).1 h
    exact ⟨_, (decode_op0 hop).trans (if_pos hres), rfl⟩
  · obtain ⟨hop, hp⟩ := (select_formatN _).1 h
    exact ⟨_, (decode_op1 hop).trans (decodeN_zero hp), rfl⟩
  · obtain ⟨hop, hp⟩ := (select_formatN _).1 h
    exact ⟨_, (decode_op2 hop).trans (decodeN_zero hp), rfl⟩
  · exact ⟨_, decode_op3 ((select_opcode _).1 h), rfl⟩
  · exact ⟨_, decode_op4 ((select_opcode _).1 h), rfl⟩
  · obtain ⟨hop, hp⟩ := (select_formatN _).1 h
    exact ⟨_, (decode_op5 hop).trans (decodeN_zero hp), rfl⟩
  · obtain ⟨hop, hp⟩ := (select_formatN _).1 h
    exact ⟨_, (decode_op6 hop).trans (decodeN_zero hp), rfl⟩
  · exact ⟨_, decode_op7 ((select_opcode _).1 h), rfl⟩

/-- R64: no two rows of the opcode map have one mnemonic. -/
theorem opcodeMap_mnemonic_inj :
    ∀ row ∈ opcodeMap, ∀ row' ∈ opcodeMap, row.mnemonic = row'.mnemonic → row = row' := by decide

/-- Settles O5: a word is decoded to one command at most, and the row of a mnemonic is one. -/
theorem opcodeMapRowsSelectTheirCommands : Obligations.OpcodeMapRowsSelectTheirCommands := by
  refine fun cw => ⟨fun row hrow => ⟨exists_decode_of_row hrow, ?selects⟩, ?disjoint, fun h => decode_high h⟩
  case selects =>
    rintro ⟨i, hi, hname⟩
    obtain ⟨row', hrow', hname', hsel⟩ := exists_row_of_encode i
    obtain rfl := opcodeMap_mnemonic_inj row' hrow' row hrow (hname'.trans hname)
    rwa [encode_of_decode hi] at hsel
  case disjoint =>
    intro row hrow row' hrow' h h'
    obtain ⟨i, hi, hname⟩ := exists_decode_of_row hrow h
    obtain ⟨j, hj, hname'⟩ := exists_decode_of_row hrow' h'
    obtain rfl : i = j := Except.ok.inj (hi.symm.trans hj)
    exact opcodeMap_mnemonic_inj row hrow row' hrow' (hname.symm.trans hname')

/-- Settles O1: the decoder on the nine words, by evaluation. -/
theorem specWordsDecodeToTheirCommands : Obligations.SpecWordsDecodeToTheirCommands := by
  unfold Obligations.SpecWordsDecodeToTheirCommands
  decide

/-- R70: the two fields of the response record are its code and its data. -/
theorem Machine.Response.bits_fields (r : Machine.Response) :
    r.bits.extractLsb' 64 2 = r.code.bits ∧ r.bits.extractLsb' 0 64 = r.data :=
  ⟨BitVec.extractLsb'_append_eq_left, BitVec.extractLsb'_append_eq_right⟩

/-- Settles O25. -/
theorem responseRecordLayout : Obligations.ResponseRecordLayout :=
  ⟨Machine.Response.bits_fields, rfl, rfl, rfl, rfl⟩

end Sys2Proof
end

section
/-! A step and a run of steps. What every step does is said once, of the event it takes (`Taken`): the invariant, the
byte order and the responses are read off it (spec/10_state.md R24, spec/70_reset_and_hazards.md R165, R169, R170). -/

namespace Sys2Proof.Machine

/-- R165, R170: what taking the event `e` from the state `s` leaves in `t`, whatever the event: nothing is taken from
what is pending behind it, the byte order and the canonical form of BUF are kept, and a command, but no reset, gives
one response. -/
structure Taken (e : HostEvent) (s t : State) : Prop where
  pending : t.pending = s.pending
  byteOrder : t.byteOrder = s.byteOrder
  buf_wf : s.buf.wf = true → t.buf.wf = true
  command : ∀ cw, e = .command cw → ∃ r, t.responses = s.responses ++ [r] ∧ r.wf = true
  reset : (∀ cw, e ≠ .command cw) → t.responses = s.responses

/-- R170: every event is taken. -/
theorem performEvent_taken (e : HostEvent) (s : State) : ∃ t, performEvent e s = .next t ∧ Taken e s t := by
  obtain ⟨t, h, hpending, hbo, hwf, hresp⟩ := performEvent_effect e s
  refine ⟨t, h, hpending, hbo, hwf, ?command, ?reset⟩
  case command => rintro cw rfl; exact hresp
  case reset =>
    intro hne
    cases e with
    | command cw => exact absurd rfl (hne cw)
    | reset | resetDuring => exact hresp

/-- R165: a step with an event presented takes it. -/
theorem step_taken {s : State} {e : HostEvent} {rest : List HostEvent} (hp : s.pending = e :: rest) :
    ∃ t, step s = .next t ∧ Taken e (s.setPending rest) t := by
  rw [step_of_cons hp]
  exact performEvent_taken e _

/-- R165: what a step that takes an event leaves. -/
theorem taken_of_step {s t : State} {e : HostEvent} {rest : List HostEvent} (hp : s.pending = e :: rest)
    (h : step s = .next t) : Taken e (s.setPending rest) t := by
  obtain ⟨u, hu, hTaken⟩ := step_taken hp
  obtain rfl : u = t := by simpa [hu] using h
  exact hTaken

/-- R151, R165: a step holds the state or takes an event. -/
theorem eq_or_taken_of_step {s t : State} (h : step s = .next t) :
    t = s ∨ ∃ e rest, Taken e (s.setPending rest) t := by
  cases hp : s.pending with
  | nil => exact .inl (by simpa [step_of_nil hp, eq_comm] using h)
  | cons e rest => exact .inr ⟨e, rest, taken_of_step hp h⟩

/-- Settles O9: the block holds its state or takes an event. -/
theorem everyStepGoesOn : Obligations.EveryStepGoesOn := by
  intro s
  cases hp : s.pending with
  | nil => exact ⟨s, step_of_nil hp⟩
  | cons e rest =>
    obtain ⟨t, ht, -⟩ := step_taken hp
    exact ⟨t, ht⟩

/-- The responses a taken event leaves are those before and at most one more, which is well-formed. -/
theorem Taken.responses_wf {e : HostEvent} {s t : State} (h : Taken e s t) (hs : ∀ r ∈ s.responses, r.wf = true) :
    ∀ r ∈ t.responses, r.wf = true := by
  by_cases he : ∃ cw, e = .command cw
  · obtain ⟨cw, hcw⟩ := he
    obtain ⟨r, hr, hwf⟩ := h.command cw hcw
    rw [hr]
    exact List.forall_mem_append.2 ⟨hs, by simpa using hwf⟩
  · rw [h.reset fun cw hcw => he ⟨cw, hcw⟩]
    exact hs

/-- Settles O10: an idle step changes nothing, and an event keeps both halves of the invariant. -/
theorem everyStepKeepsTheInvariant : Obligations.EveryStepKeepsTheInvariant := by
  rintro s t ⟨hbuf, hresp⟩ hstep
  obtain rfl | ⟨e, rest, hTaken⟩ := eq_or_taken_of_step hstep
  · exact ⟨hbuf, hresp⟩
  · exact ⟨hTaken.buf_wf hbuf, hTaken.responses_wf hresp⟩

/-- Settles O11: the reset state lists no byte of BUF and holds no response. -/
theorem resetMeetsTheInvariant : Obligations.ResetMeetsTheInvariant := by
  have h (bo : ByteOrder) : (State.resetWith bo).Inv := ⟨rfl, by simp⟩
  exact ⟨h Config.byteOrder, h⟩

/-- Settles O12: an idle step changes nothing, and no event changes the byte order. -/
theorem byteOrderIsFixed : Obligations.ByteOrderIsFixed := by
  intro s t hstep
  obtain rfl | ⟨e, rest, hTaken⟩ := eq_or_taken_of_step hstep
  · rfl
  · exact hTaken.byteOrder

/-- R70: a well-formed response carries data only when it is OK. -/
theorem Response.data_eq_zero_of_wf {r : Response} (h : r.wf = true) (hc : r.code ≠ .ok) : r.data = 0#64 := by
  simpa [Response.wf, hc] using h

/-- Settles O13: what a taken event leaves of the queue and adds to the responses. -/
theorem everyCommandIsAnsweredOnce : Obligations.EveryCommandIsAnsweredOnce := by
  intro s t e rest hp hstep
  have hTaken := taken_of_step hp hstep
  refine ⟨hTaken.pending, ?_⟩
  cases e with
  | command cw =>
    obtain ⟨r, hr, hwf⟩ := hTaken.command cw rfl
    exact ⟨r, hr, Response.data_eq_zero_of_wf hwf⟩
  | reset => exact hTaken.reset nofun
  | resetDuring cw => exact hTaken.reset nofun

/-- R165: a step performs the word presented. -/
theorem step_of_command {s : State} {cw : CommandWord} {rest : List HostEvent} (hp : s.pending = .command cw :: rest) :
    step s = performWord cw (s.setPending rest) := step_of_cons hp

/-- Settles O6: a step performs the word presented, which runs or is refused as the decoder says. -/
theorem stepPerformsTheCommandPresented : Obligations.StepPerformsTheCommandPresented := by
  intro s cw rest hp
  rw [step_of_command hp]
  exact ⟨fun i hi => performWord_of_ok hi _, fun e he => performWord_of_error he _⟩

/-- R61: the number of a command word names that word. -/
theorem commandWordOfBits_toNat (cw : CommandWord) : commandWordOfBits 72 cw.toNat = cw := by
  rw [commandWordOfBits, Nat.mod_eq_of_lt cw.isLt, BitVec.ofNat_toNat, BitVec.setWidth_eq]

/-- R165: a step performs the word placed for it. -/
theorem step_present (s : State) (cw : CommandWord) : step (s.present cw) = performWord cw s :=
  step_of_command (State.present_pending s cw)

/-- Settles O7: the word placed is the command's, and it decodes to the command. -/
theorem stepRunsThePlacedCommand : Obligations.StepRunsThePlacedCommand := by
  intro i s
  rw [State.withFetchWord, commandWordOfBits_toNat, step_present, performWord_of_ok (decode_encode i)]

/-- Settles O8. -/
theorem idleBlockHoldsItsState : Obligations.IdleBlockHoldsItsState := fun _ => step_of_nil

/-- R169: the first word of a program gives its response and leaves the rest of the program. -/
theorem step_first_word {s : State} {cw : CommandWord} {cws : List CommandWord}
    (hp : s.pending = (cw :: cws).map .command) :
    ∃ v r, step s = .next v ∧ performWord cw (s.setPending (cws.map .command)) = .next v ∧
      v.pending = cws.map .command ∧ v.responses = s.responses ++ [r] := by
  obtain ⟨v, r, hv, p⟩ := performWord_performed cw (s.setPending (cws.map .command))
  exact ⟨v, r, (step_of_command hp).trans hv, hv, p.pending, p.responses⟩

/-- Settles O14, by induction on the program: position 0 is the first step, and position `k + 1` is position `k` of the
run behind it. -/
theorem programGetsItsResponsesInOrder : Obligations.ProgramGetsItsResponsesInOrder := by
  intro s cws
  induction cws generalizing s with
  | nil =>
    intro hp
    refine ⟨s, [], rfl, hp, rfl, (List.append_nil _).symm, fun k hk => ?_, fun k cw hcw => by simp at hcw⟩
    obtain rfl : k = 0 := Nat.le_zero.1 hk
    exact ⟨s, rfl, hp, (List.append_nil _).symm⟩
  | cons cw cws ih =>
    intro hp
    obtain ⟨v, r, hstep, hperform, hpending, hresp⟩ := step_first_word hp
    obtain ⟨t, rs, hrun, hdone, hlen, hall, hprefix, hat⟩ := ih v hpending
    refine ⟨t, r :: rs, (runSteps_succ hstep _).trans hrun, hdone, congrArg Nat.succ hlen, ?all, ?upTo, ?position⟩
    case all => rw [hall, hresp, List.append_assoc, List.singleton_append]
    case upTo =>
      intro k hk
      cases k with
      | zero => exact ⟨s, rfl, hp, (List.append_nil _).symm⟩
      | succ k =>
        obtain ⟨u, hu, hupending, huresp⟩ := hprefix k (Nat.le_of_succ_le_succ hk)
        exact ⟨u, (runSteps_succ hstep k).trans hu, hupending,
          by rw [huresp, hresp, List.take_succ_cons, List.append_assoc, List.singleton_append]⟩
    case position =>
      intro k w hw
      cases k with
      | zero =>
        obtain rfl : cw = w := Option.some.inj hw
        exact ⟨s, v, r, rfl, hperform, runSteps_succ hstep 0, rfl, hresp⟩
      | succ k =>
        obtain ⟨u, u', r', hu, hperform', hu', hr', hresp'⟩ := hat k w hw
        exact ⟨u, u', r', (runSteps_succ hstep k).trans hu, hperform', (runSteps_succ hstep (k + 1)).trans hu', hr',
          hresp'⟩

/-- Settles O15: after reset both flags are 0, so a draw or fill of either unit is refused. -/
theorem resetStateIsUnseeded : Obligations.ResetStateIsUnseeded := by
  refine ⟨rfl, rfl, fun i h32 h64 => exec_unseeded i ?_ h32 h64⟩
  cases i.unit <;> rfl

/-- Settles O16: the step takes the reset, which touches the flags and the registers only. -/
theorem resetClearsTheFlagsAndKeepsBuf : Obligations.ResetClearsTheFlagsAndKeepsBuf := fun _ _ hp =>
  ⟨_, step_of_cons hp, rfl, rfl, rfl, rfl, rfl, rfl⟩

/-- R161: an address of the mixture reads as in the old content or as in the new one. -/
theorem Memory.read_mixture_old_or_new (wrote : Nat → Bool) (old new : Memory) (a n x : Nat) :
    Memory.read (Memory.mixture wrote old new a n) x = Memory.read old x ∨
      Memory.read (Memory.mixture wrote old new a n) x = Memory.read new x := by
  rw [Memory.read_mixture]
  split
  · exact .inr rfl
  · exact .inl rfl

/-- R161: outside its range the mixture is the old content. -/
theorem Memory.read_mixture_outside (wrote : Nat → Bool) (old new : Memory) {a n x : Nat} (h : x < a ∨ a + n ≤ x) :
    Memory.read (Memory.mixture wrote old new a n) x = Memory.read old x := by
  rw [Memory.read_mixture, if_neg (by omega)]

/-- Settles O17: the step leaves the mixture of BUF as it was and as the whole command leaves it. -/
theorem resetDuringACommand : Obligations.ResetDuringACommand := by
  intro s cw rest hp
  obtain ⟨u, r, hu, -⟩ := performWord_performed cw (s.setPending rest)
  exact ⟨_, u, (step_of_cons hp).trans (interruptedBy_of_next hu), hu, rfl, rfl, rfl, rfl,
    Memory.read_mixture_old_or_new _ s.buf u.buf _ _, fun _ => Memory.read_mixture_outside _ s.buf u.buf⟩

end Sys2Proof.Machine
end

section
/-! The two units. A command acts on the condition of its own unit, on BUF and on the responses, and reads nothing but
its unit's condition and the byte order (spec/10_state.md R28, R31). So in all states that agree on these two it leaves
one condition, stores one run of bytes and gives one response. The independence of the units, the equality of streams
(spec/40_mixer32.md R89, spec/41_mixer64.md R109) and the silence of unseeded registers (R32) follow. -/

namespace Sys2Proof.Machine

/-- R31: a state with the register and the flag of the unit `u` taken from `r`. -/
def State.graft (s : State) (u : MixUnit) (r : State) : State :=
  match u with
  | .m32 => { s with s32 := r.s32, v32 := r.v32 }
  | .m64 => { s with s64 := r.s64, v64 := r.v64 }

section graft

variable (s r : State) (u : MixUnit)

@[simp] theorem State.graft_buf : (s.graft u r).buf = s.buf := by cases u <;> rfl
@[simp] theorem State.graft_byteOrder : (s.graft u r).byteOrder = s.byteOrder := by cases u <;> rfl
@[simp] theorem State.graft_pending : (s.graft u r).pending = s.pending := by cases u <;> rfl
@[simp] theorem State.graft_responses : (s.graft u r).responses = s.responses := by cases u <;> rfl
@[simp] theorem State.graft_seeded : (s.graft u r).seeded u = r.seeded u := by cases u <;> rfl

theorem State.sameUnit_refl : s.SameUnit u s := by cases u <;> exact ⟨rfl, rfl⟩

variable {s r u}

/-- R31: a state whose unit is in the condition grafted is not changed. -/
theorem State.graft_eq_self (h : s.SameUnit u r) : s.graft u r = s := by
  cases u with
  | m32 => obtain ⟨hreg, hflag⟩ := h; rw [State.graft, ← hreg, ← hflag]
  | m64 => obtain ⟨hreg, hflag⟩ := h; rw [State.graft, ← hreg, ← hflag]

end graft

/-- R28, R31: the state a command leaves that puts its unit in the condition of `r`, stores `bs` at `a` and gives one
response. -/
def State.acted (s : State) (u : MixUnit) (r : State) (a : Nat) (bs : List Byte) (c : Code) (d : Word64) : State :=
  ((s.graft u r).setBuf (Memory.store s.buf a bs)).respond c d

/-- R125: a fill advances the grafted unit as it advances the unit where it comes from. -/
theorem State.filled_graft (u : MixUnit) (len : Nat) (s r : State) :
    (s.graft u r).filled u len = s.graft u (r.filled u len) := by cases u <;> rfl

/-- R122: the bytes of a fill depend on the unit's condition and the byte order. -/
theorem State.fillImage_graft (u : MixUnit) (len : Nat) {s r : State} (h : s.byteOrder = r.byteOrder) :
    (s.graft u r).fillImage u len = r.fillImage u len := by
  rw [State.fillImage, State.graft_byteOrder, h]
  cases u <;> rfl

/-- R84, R104: a seed command puts its unit in a condition that depends on the byte order only. -/
theorem exec_seed_acted {i : Instr} (h : isSeed32 i = true ∨ isSeed64 i = true) (bo : ByteOrder) :
    ∃ r' : State, ∀ s : State, s.byteOrder = bo →
      exec i s = .next (s.acted i.unit r' (Instr.fillRange i).1 [] .ok 0#64) := by
  cases i with
  | m32Seed b0 b1 b2 b3 =>
    refine ⟨((State.resetWith bo).setS32 (seedValue32 bo b0 b1 b2 b3)).setV32, ?_⟩
    rintro s rfl
    rfl
  | m64Seed b0 b1 b2 b3 b4 b5 b6 b7 =>
    refine ⟨((State.resetWith bo).setS64 (seedValue64 bo b0 b1 b2 b3 b4 b5 b6 b7)).setV64, ?_⟩
    rintro s rfl
    rfl
  | m32Next32 | m32Next64 | m32Fill | m64Next32 | m64Next64 | m64Fill => simp [isSeed32, isSeed64] at h

/-- R140: a refusal stores nothing and leaves the unit in its condition. -/
theorem State.refuse_eq_acted (s r : State) (u : MixUnit) (a : Nat) (c : Code) :
    (s.graft u r).refuse c = s.acted u r a [] c 0#64 := by cases u <;> rfl

/-- R126, R127: a fill of a seeded unit acts on its unit and its range only. -/
theorem exec_fillOf_graft {u : MixUnit} {r : State} (hs : r.seeded u = true) (base len : Word32) :
    ∃ r' bs c, ∀ s : State, s.byteOrder = r.byteOrder →
      exec (fillOf u base len) (s.graft u r) = .next (s.acted u r' base.toNat bs c 0#64) := by
  rcases Nat.lt_or_ge bufSize (base.toNat + len.toNat) with hr | hr
  · exact ⟨r, [], .bufferRange, fun s _ => by
      rw [exec_fillOf_outOfRange (by simpa using hs) hr, State.refuse_eq_acted]⟩
  · exact ⟨r.filled u len.toNat, r.fillImage u len.toNat, .ok, fun s hbo => by
      rw [exec_fillOf_inRange (by simpa using hs) hr, State.filled_graft, State.fillImage_graft u _ hbo,
        State.graft_buf, State.acted]⟩

/-- R85, R86, R105, R106, R126, R127: a draw or fill of a seeded unit acts on its unit and its range only. -/
theorem exec_seeded_graft {i : Instr} {r : State} (hs : r.seeded i.unit = true) (h32 : isSeed32 i = false)
    (h64 : isSeed64 i = false) :
    ∃ r' bs c d, ∀ s : State, s.byteOrder = r.byteOrder →
      exec i (s.graft i.unit r) = .next (s.acted i.unit r' (Instr.fillRange i).1 bs c d) := by
  cases i with
  | m32Seed => simp [isSeed32] at h32
  | m64Seed => simp [isSeed64] at h64
  | m32Next32 =>
    exact ⟨r.setS32 (mix32 r.s32), [], .ok, (mix32 r.s32).setWidth 64, fun _ _ => execM32Next32_seeded hs⟩
  | m32Next64 =>
    exact ⟨r.setS32 (mix32 (mix32 r.s32)), [], .ok, mix32 (mix32 r.s32) ++ mix32 r.s32,
      fun _ _ => execM32Next64_seeded hs⟩
  | m64Next32 =>
    exact ⟨r.setS64 (mix64 r.s64), [], .ok, ((mix64 r.s64).extractLsb' 0 32).setWidth 64,
      fun _ _ => execM64Next32_seeded hs⟩
  | m64Next64 =>
    exact ⟨r.setS64 (mix64 r.s64), [], .ok, mix64 r.s64, fun _ _ => execM64Next64_seeded hs⟩
  | m32Fill base len =>
    obtain ⟨r', bs, c, h⟩ := exec_fillOf_graft (u := .m32) hs base len
    exact ⟨r', bs, c, _, h⟩
  | m64Fill base len =>
    obtain ⟨r', bs, c, h⟩ := exec_fillOf_graft (u := .m64) hs base len
    exact ⟨r', bs, c, _, h⟩

/-- R28, R31: in all states with one byte order and one condition of its unit, a command leaves one condition of its
unit, stores one run of bytes and gives one response, and touches nothing else. -/
theorem exec_acted (i : Instr) (r : State) :
    ∃ r' bs c d, ∀ s : State, s.byteOrder = r.byteOrder → s.SameUnit i.unit r →
      exec i s = .next (s.acted i.unit r' (Instr.fillRange i).1 bs c d) := by
  by_cases hseed : isSeed32 i = true ∨ isSeed64 i = true
  · obtain ⟨r', h⟩ := exec_seed_acted hseed r.byteOrder
    exact ⟨r', [], .ok, _, fun s hbo _ => h s hbo⟩
  · obtain ⟨h32, h64⟩ : isSeed32 i = false ∧ isSeed64 i = false := by simpa using hseed
    cases hs : r.seeded i.unit with
    | false =>
      refine ⟨r, [], .unseeded, 0#64, fun s _ hsame => ?_⟩
      rw [← State.graft_eq_self hsame, exec_unseeded i (by simpa using hs) h32 h64, State.refuse_eq_acted,
        State.graft_eq_self hsame]
    | true =>
      obtain ⟨r', bs, c, d, h⟩ := exec_seeded_graft hs h32 h64
      refine ⟨r', bs, c, d, fun s hbo hsame => ?_⟩
      rw [← h s hbo, State.graft_eq_self hsame]

/-- Settles O48: with its own unit in the same condition a command does the same to it, and leaves the other unit as it
finds it. -/
theorem unitsAreIndependent : Obligations.UnitsAreIndependent := by
  intro i s
  obtain ⟨r', bs, c, d, h⟩ := exec_acted i s
  refine ⟨_, h s rfl (State.sameUnit_refl s i.unit), fun hu => ?_, fun hu => ?_⟩
  · rw [hu] at h ⊢
    exact ⟨rfl, rfl, fun x v => h { s with s64 := x, v64 := v } rfl ⟨rfl, rfl⟩⟩
  · rw [hu] at h ⊢
    exact ⟨rfl, rfl, fun x v => h { s with s32 := x, v32 := v } rfl ⟨rfl, rfl⟩⟩

/-- R24, R69: the step that begins a program runs its first command. -/
theorem step_program {s : State} {i : Instr} {is : List Instr} (hp : s.pending = program (i :: is)) :
    step s = exec i (s.setPending (program is)) :=
  (step_of_command hp).trans (performWord_of_ok (decode_encode i) _)

/-- R89, R109: what a run from `s` to `t` and a run from `s'` to `t'` have in common: they leave the unit in one
condition, give the responses `rs` and write the same bytes. -/
structure SameStream (u : MixUnit) (s s' t t' : State) (rs : List Response) : Prop where
  sameUnit : t.SameUnit u t'
  responses : t.responses = s.responses ++ rs
  responses' : t'.responses = s'.responses ++ rs
  written : ∀ a, Memory.read t.buf a = Memory.read t'.buf a ∨
    (Memory.read t.buf a = Memory.read s.buf a ∧ Memory.read t'.buf a = Memory.read s'.buf a)

/-- R89, R109: runs of one stream, each with a run of one stream behind it. -/
theorem SameStream.trans {u : MixUnit} {s s' v v' t t' : State} {rs rs' : List Response}
    (h : SameStream u s s' v v' rs) (h' : SameStream u v v' t t' rs') : SameStream u s s' t t' (rs ++ rs') where
  sameUnit := h'.sameUnit
  responses := by rw [h'.responses, h.responses, List.append_assoc]
  responses' := by rw [h'.responses', h.responses', List.append_assoc]
  written a := by
    obtain hlast | ⟨hkept, hkept'⟩ := h'.written a
    · exact .inl hlast
    · rw [hkept, hkept']
      exact h.written a

/-- R89, R109: one action on one unit of two states is one stream. -/
theorem sameStream_acted (s s' : State) (u : MixUnit) (r : State) (a : Nat) (bs : List Byte) (c : Code) (d : Word64) :
    SameStream u s s' (s.acted u r a bs c d) (s'.acted u r a bs c d) [⟨c, d⟩] where
  sameUnit := by cases u <;> exact ⟨rfl, rfl⟩
  responses := by cases u <;> rfl
  responses' := by cases u <;> rfl
  written := Memory.read_store_eq_or_kept s.buf s'.buf a bs

/-- What is pending is no part of a unit's condition. -/
theorem State.SameUnit.setPending {u : MixUnit} {s s' : State} (h : s.SameUnit u s') (es : List HostEvent) :
    (s.setPending es).SameUnit u s' := by cases u <;> exact h

/-- R89, R109: a program of commands of one unit, by induction on the program. -/
theorem runSteps_sameStream {u : MixUnit} (is : List Instr) : ∀ s s' : State, (∀ i ∈ is, i.unit = u) →
    s.SameUnit u s' → s.byteOrder = s'.byteOrder → s.pending = program is → s'.pending = program is →
    ∃ t t' rs, runSteps is.length s = .next t ∧ runSteps is.length s' = .next t' ∧ SameStream u s s' t t' rs := by
  induction is with
  | nil =>
    intro s s' _ hsame _ _ _
    exact ⟨s, s', [], rfl, rfl, hsame, (List.append_nil _).symm, (List.append_nil _).symm, fun _ => .inr ⟨rfl, rfl⟩⟩
  | cons i is ih =>
    intro s s' hunit hsame hbo hp hp'
    obtain ⟨rfl, hrest⟩ := List.forall_mem_cons.1 hunit
    obtain ⟨r, bs, c, d, hexec⟩ := exec_acted i s'
    have hfirst := sameStream_acted (s.setPending (program is)) (s'.setPending (program is)) i.unit r
      (Instr.fillRange i).1 bs c d
    obtain ⟨t, t', rs, hrun, hrun', hstream⟩ := ih _ _ hrest hfirst.sameUnit (by simpa [State.acted] using hbo)
      (by simp [State.acted]) (by simp [State.acted])
    refine ⟨t, t', _, (runSteps_succ ?first _).trans hrun, (runSteps_succ ?first' _).trans hrun',
      SameStream.trans ⟨hfirst.sameUnit, hfirst.responses, hfirst.responses', hfirst.written⟩ hstream⟩
    case first => exact (step_program hp).trans (hexec (s.setPending _) hbo (hsame.setPending _))
    case first' =>
      exact (step_program hp').trans (hexec (s'.setPending _) rfl ((State.sameUnit_refl s' _).setPending _))

/-- Settles O50. -/
theorem equalUnitsGiveEqualStreams : Obligations.EqualUnitsGiveEqualStreams := by
  intro u is s s' hunit hsame hbo hp hp'
  obtain ⟨t, t', rs, hrun, hrun', h⟩ := runSteps_sameStream is s s' hunit hsame hbo hp hp'
  exact ⟨t, t', rs, hrun, hrun', h.sameUnit, h.responses, h.responses', h.written⟩

namespace State.AgreeWhereSeeded

variable {s t : State}

/-- R32: where a unit is seeded, the two states have it in the same condition. -/
theorem sameUnit (h : s.AgreeWhereSeeded t) {u : MixUnit} (hs : s.seeded u = true) : s.SameUnit u t := by
  obtain ⟨hv32, hv64, hs32, hs64, -⟩ := h
  cases u with
  | m32 => exact ⟨hs32 hs, hv32⟩
  | m64 => exact ⟨hs64 hs, hv64⟩

theorem seeded_eq (h : s.AgreeWhereSeeded t) (u : MixUnit) : s.seeded u = t.seeded u := by
  obtain ⟨hv32, hv64, -⟩ := h
  cases u with
  | m32 => exact hv32
  | m64 => exact hv64

theorem buf_eq : s.AgreeWhereSeeded t → s.buf = t.buf := fun ⟨_, _, _, _, hbuf, _⟩ => hbuf
theorem byteOrder_eq : s.AgreeWhereSeeded t → s.byteOrder = t.byteOrder := fun ⟨_, _, _, _, _, hbo, _⟩ => hbo
theorem pending_eq : s.AgreeWhereSeeded t → s.pending = t.pending := fun ⟨_, _, _, _, _, _, hpending, _⟩ => hpending
theorem freeIndex_eq : s.AgreeWhereSeeded t → s.freeIndex = t.freeIndex := fun ⟨_, _, _, _, _, _, _, _, hfree⟩ => hfree

/-- R32: one action on one unit leaves the states agreeing. -/
theorem acted (h : s.AgreeWhereSeeded t) (u : MixUnit) (r : State) (a : Nat) (bs : List Byte) (c : Code) (d : Word64) :
    (s.acted u r a bs c d).AgreeWhereSeeded (t.acted u r a bs c d) := by
  obtain ⟨hv32, hv64, hs32, hs64, hbuf, hbo, hpending, hresp, hfree⟩ := h
  have hbuf' : Memory.store s.buf a bs = Memory.store t.buf a bs := by rw [hbuf]
  have hresp' : s.responses ++ [⟨c, d⟩] = t.responses ++ [⟨c, d⟩] := by rw [hresp]
  cases u with
  | m32 => exact ⟨rfl, hv64, fun _ => rfl, hs64, hbuf', hbo, hpending, hresp', hfree⟩
  | m64 => exact ⟨hv32, rfl, hs32, fun _ => rfl, hbuf', hbo, hpending, hresp', hfree⟩

/-- R32, R140: a refusal leaves the states agreeing. -/
theorem refuse (h : s.AgreeWhereSeeded t) (c : Code) : (s.refuse c).AgreeWhereSeeded (t.refuse c) := by
  obtain ⟨hv32, hv64, hs32, hs64, hbuf, hbo, hpending, hresp, hfree⟩ := h
  exact ⟨hv32, hv64, hs32, hs64, hbuf, hbo, hpending, by rw [refuse_responses, refuse_responses, hresp], hfree⟩

theorem setPending (h : s.AgreeWhereSeeded t) (es : List HostEvent) :
    (s.setPending es).AgreeWhereSeeded (t.setPending es) := by
  obtain ⟨hv32, hv64, hs32, hs64, hbuf, hbo, -, hresp, hfree⟩ := h
  exact ⟨hv32, hv64, hs32, hs64, hbuf, hbo, rfl, hresp, hfree⟩

/-- R32: a seed command loads its unit, a draw or fill of an unseeded unit is refused, and any other command finds its
unit in the same condition. -/
theorem exec (h : s.AgreeWhereSeeded t) (i : Instr) :
    ∃ s' t', Machine.exec i s = .next s' ∧ Machine.exec i t = .next t' ∧ s'.AgreeWhereSeeded t' := by
  by_cases hseed : isSeed32 i = true ∨ isSeed64 i = true
  · obtain ⟨r, hr⟩ := exec_seed_acted hseed t.byteOrder
    exact ⟨_, _, hr s h.byteOrder_eq, hr t rfl, h.acted i.unit r _ [] .ok 0#64⟩
  · obtain ⟨h32, h64⟩ : isSeed32 i = false ∧ isSeed64 i = false := by simpa using hseed
    cases hs : s.seeded i.unit with
    | false =>
      exact ⟨_, _, exec_unseeded i hs h32 h64, exec_unseeded i (h.seeded_eq i.unit ▸ hs) h32 h64, h.refuse .unseeded⟩
    | true =>
      obtain ⟨r, bs, c, d, hr⟩ := exec_acted i t
      exact ⟨_, _, hr s h.byteOrder_eq (h.sameUnit hs), hr t rfl (State.sameUnit_refl t i.unit),
        h.acted i.unit r _ bs c d⟩

theorem performWord (h : s.AgreeWhereSeeded t) (cw : CommandWord) :
    ∃ s' t', Machine.performWord cw s = .next s' ∧ Machine.performWord cw t = .next t' ∧ s'.AgreeWhereSeeded t' := by
  cases hd : decode cw with
  | error e => exact ⟨_, _, performWord_of_error hd s, performWord_of_error hd t, h.refuse .illegalCommand⟩
  | ok i =>
    rw [performWord_of_ok hd, performWord_of_ok hd]
    exact h.exec i

/-- R160, R161: a reset makes both units unseeded, so no register is left to agree on. -/
theorem takeReset {m m' : Memory} {k k' : Nat} (h : s.AgreeWhereSeeded t) (hm : m = m') (hk : k = k') :
    State.AgreeWhereSeeded { (s.setBuf m).takeReset with freeIndex := k }
      { (t.setBuf m').takeReset with freeIndex := k' } := by
  obtain ⟨-, -, -, -, -, hbo, hpending, hresp, -⟩ := h
  exact ⟨rfl, rfl, fun _ => rfl, fun _ => rfl, hm, hbo, hpending, hresp, hk⟩

theorem performEvent (h : s.AgreeWhereSeeded t) (e : HostEvent) :
    ∃ s' t', Machine.performEvent e s = .next s' ∧ Machine.performEvent e t = .next t' ∧ s'.AgreeWhereSeeded t' := by
  cases e with
  | command cw => exact h.performWord cw
  | reset => exact ⟨_, _, rfl, rfl, h.takeReset h.buf_eq h.freeIndex_eq⟩
  | resetDuring cw =>
    obtain ⟨s', t', hs', ht', h'⟩ := h.performWord cw
    refine ⟨_, _, interruptedBy_of_next hs', interruptedBy_of_next ht', h.takeReset ?buf (by rw [h.freeIndex_eq])⟩
    case buf => rw [h.buf_eq, h.freeIndex_eq, h'.buf_eq]

theorem step (h : s.AgreeWhereSeeded t) :
    ∃ s' t', Machine.step s = .next s' ∧ Machine.step t = .next t' ∧ s'.AgreeWhereSeeded t' := by
  cases hp : s.pending with
  | nil => exact ⟨s, t, step_of_nil hp, step_of_nil (h.pending_eq ▸ hp), h⟩
  | cons e rest =>
    rw [step_of_cons hp, step_of_cons (h.pending_eq ▸ hp)]
    exact (h.setPending rest).performEvent e

end State.AgreeWhereSeeded

/-- Settles O18, by induction on the number of steps. -/
theorem unseededRegistersNeverShow : Obligations.UnseededRegistersNeverShow := by
  intro n
  induction n with
  | zero => exact fun s t h => ⟨s, t, rfl, rfl, h⟩
  | succ n ih =>
    intro s t h
    obtain ⟨s', t', hs, ht, h'⟩ := h.step
    rw [runSteps_succ hs, runSteps_succ ht]
    exact ih s' t' h'

end Sys2Proof.Machine
end

section
/-! The life of a unit. Every command changes the flags as spec/10_state.md R25 says and the registers as R30 says: by a
number of advances, none when it is refused (`Progress`). A program behind a seed adds these numbers up. -/

namespace Sys2Proof.Machine

/-- R25, R30, R125: what a command that leaves `t` has done to the flags and the registers of `s`. -/
structure Progress (i : Instr) (s t : State) : Prop where
  v32 : t.v32 = (s.v32 || isSeed32 i)
  v64 : t.v64 = (s.v64 || isSeed64 i)
  s32 : isSeed32 i = false → t.s32 = mix32^[advancesOf32 s.v32 i] s.s32
  s64 : isSeed64 i = false → t.s64 = mix64^[advancesOf64 s.v64 i] s.s64

/-- R30, R143: a command of an unseeded unit makes no advance, of its own unit or of the other. -/
theorem advances_of_unseeded {i : Instr} {s : State} (hs : s.seeded i.unit = false) :
    advancesOf32 s.v32 i = 0 ∧ advancesOf64 s.v64 i = 0 := by
  cases i with
  | m32Seed | m64Seed => exact ⟨rfl, rfl⟩
  | m32Next32 | m32Next64 | m32Fill =>
    obtain hs : s.v32 = false := hs
    simp [advancesOf32, advancesOf64, hs]
  | m64Next32 | m64Next64 | m64Fill =>
    obtain hs : s.v64 = false := hs
    simp [advancesOf32, advancesOf64, hs]

section draws_and_fills

variable {i : Instr} {s t : State} (h32 : isSeed32 i = false) (h64 : isSeed64 i = false)

include h32 h64

/-- R25: a draw or fill leaves both flags as they are. -/
theorem progress_of_not_seed (hv32 : t.v32 = s.v32) (hv64 : t.v64 = s.v64)
    (hs32 : t.s32 = mix32^[advancesOf32 s.v32 i] s.s32) (hs64 : t.s64 = mix64^[advancesOf64 s.v64 i] s.s64) :
    Progress i s t :=
  ⟨by rw [hv32, h32, Bool.or_false], by rw [hv64, h64, Bool.or_false], fun _ => hs32, fun _ => hs64⟩

/-- R30: a refused draw or fill makes no advance. -/
theorem progress_refuse (c : Code) (ha32 : advancesOf32 s.v32 i = 0) (ha64 : advancesOf64 s.v64 i = 0) :
    Progress i s (s.refuse c) :=
  progress_of_not_seed h32 h64 rfl rfl (by rw [ha32]; rfl) (by rw [ha64]; rfl)

/-- R30, R143: a draw or fill of an unseeded unit makes no advance. -/
theorem exec_unseeded_progress (hs : s.seeded i.unit = false) : ∃ t, exec i s = .next t ∧ Progress i s t := by
  obtain ⟨ha32, ha64⟩ := advances_of_unseeded hs
  exact ⟨_, exec_unseeded i hs h32 h64, progress_refuse h32 h64 .unseeded ha32 ha64⟩

/-- R30, R125: a draw or fill of a seeded unit makes its advances. -/
theorem exec_seeded_progress (hs : s.seeded i.unit = true) : ∃ t, exec i s = .next t ∧ Progress i s t := by
  cases i with
  | m32Seed => simp [isSeed32] at h32
  | m64Seed => simp [isSeed64] at h64
  | m32Next32 =>
    obtain hs : s.v32 = true := hs
    exact ⟨_, execM32Next32_seeded hs, progress_of_not_seed h32 h64 rfl rfl (by rw [hs]; rfl) rfl⟩
  | m32Next64 =>
    obtain hs : s.v32 = true := hs
    exact ⟨_, execM32Next64_seeded hs, progress_of_not_seed h32 h64 rfl rfl (by rw [hs]; rfl) rfl⟩
  | m64Next32 =>
    obtain hs : s.v64 = true := hs
    exact ⟨_, execM64Next32_seeded hs, progress_of_not_seed h32 h64 rfl rfl rfl (by rw [hs]; rfl)⟩
  | m64Next64 =>
    obtain hs : s.v64 = true := hs
    exact ⟨_, execM64Next64_seeded hs, progress_of_not_seed h32 h64 rfl rfl rfl (by rw [hs]; rfl)⟩
  | m32Fill base len =>
    obtain hs : s.v32 = true := hs
    rcases Nat.lt_or_ge bufSize (base.toNat + len.toNat) with hr | hr
    · exact ⟨_, exec_fillOf_outOfRange (u := .m32) hs hr,
        progress_refuse h32 h64 _ (by simp [advancesOf32, rangeOk_eq_false_iff.2 hr]) rfl⟩
    · exact ⟨_, exec_fillOf_inRange (u := .m32) hs hr,
        progress_of_not_seed h32 h64 rfl rfl (by simp [advancesOf32, hs, rangeOk_iff.2 hr, State.filled]) rfl⟩
  | m64Fill base len =>
    obtain hs : s.v64 = true := hs
    rcases Nat.lt_or_ge bufSize (base.toNat + len.toNat) with hr | hr
    · exact ⟨_, exec_fillOf_outOfRange (u := .m64) hs hr,
        progress_refuse h32 h64 _ rfl (by simp [advancesOf64, rangeOk_eq_false_iff.2 hr])⟩
    · exact ⟨_, exec_fillOf_inRange (u := .m64) hs hr,
        progress_of_not_seed h32 h64 rfl rfl rfl (by simp [advancesOf64, hs, rangeOk_iff.2 hr, State.filled])⟩

end draws_and_fills

/-- R25: a seed command sets its unit's flag, and touches nothing of the other unit. -/
theorem exec_seed_progress {i : Instr} (h : isSeed32 i = true ∨ isSeed64 i = true) (s : State) :
    ∃ t, exec i s = .next t ∧ Progress i s t := by
  cases i with
  | m32Seed => exact ⟨_, rfl, (Bool.or_true _).symm, (Bool.or_false _).symm, nofun, fun _ => rfl⟩
  | m64Seed => exact ⟨_, rfl, (Bool.or_false _).symm, (Bool.or_true _).symm, fun _ => rfl, nofun⟩
  | m32Next32 | m32Next64 | m32Fill | m64Next32 | m64Next64 | m64Fill => simp [isSeed32, isSeed64] at h

/-- R25, R30: every command. -/
theorem exec_progress (i : Instr) (s : State) : ∃ t, exec i s = .next t ∧ Progress i s t := by
  by_cases hseed : isSeed32 i = true ∨ isSeed64 i = true
  · exact exec_seed_progress hseed s
  · obtain ⟨h32, h64⟩ : isSeed32 i = false ∧ isSeed64 i = false := by simpa using hseed
    cases hs : s.seeded i.unit with
    | false => exact exec_unseeded_progress h32 h64 hs
    | true => exact exec_seeded_progress h32 h64 hs

/-- Settles O19: a legal word makes its command's progress, an illegal one is refused, and either reset clears both
flags. -/
theorem flagsFollowTheLifeCycle : Obligations.FlagsFollowTheLifeCycle := by
  intro s t e rest hp hstep
  rw [step_of_cons hp] at hstep
  cases e with
  | reset =>
    obtain rfl := Host.Outcome.next.inj hstep
    exact ⟨rfl, rfl⟩
  | resetDuring cw =>
    obtain ⟨u, r, hu, -⟩ := performWord_performed cw (s.setPending rest)
    obtain rfl := Host.Outcome.next.inj ((interruptedBy_of_next hu).symm.trans hstep)
    exact ⟨rfl, rfl⟩
  | command cw =>
    rw [performEvent] at hstep
    dsimp only
    cases hd : decode cw with
    | error e =>
      obtain rfl := Host.Outcome.next.inj ((performWord_of_error hd _).symm.trans hstep)
      exact ⟨rfl, rfl⟩
    | ok i =>
      obtain ⟨u, hu, hprogress⟩ := exec_progress i (s.setPending rest)
      obtain rfl := Host.Outcome.next.inj (hu.symm.trans ((performWord_of_ok hd _).symm.trans hstep))
      exact ⟨hprogress.v32, hprogress.v64⟩

section program

variable {α : Type} {register : State → α} {flag : State → Bool} {advance : α → α} {advances : Instr → Nat}
  {counted : Instr → Prop}

/-- R30: a register that every command of a kind advances by its own number of advances is, after a program of commands
of that kind, advanced by their sum: by induction on the program. -/
theorem runSteps_register
    (hexec : ∀ (i : Instr) (s : State), counted i → flag s = true → ∃ t, exec i s = .next t ∧ t.pending = s.pending ∧
      flag t = true ∧ register t = advance^[advances i] (register s))
    (hflag : ∀ s es, flag (State.setPending s es) = flag s)
    (hregister : ∀ s es, register (State.setPending s es) = register s) (is : List Instr) :
    ∀ s : State, (∀ i ∈ is, counted i) → flag s = true → s.pending = program is →
      ∃ t, runSteps is.length s = .next t ∧ register t = advance^[(is.map advances).sum] (register s) := by
  induction is with
  | nil => exact fun s _ _ _ => ⟨s, rfl, rfl⟩
  | cons i is ih =>
    intro s hall hs hp
    obtain ⟨hi, hrest⟩ := List.forall_mem_cons.1 hall
    obtain ⟨u, hu, hpending, hfu, hru⟩ := hexec i (s.setPending (program is)) hi ((hflag s _).trans hs)
    obtain ⟨t, ht, hrt⟩ := ih u hrest hfu hpending
    refine ⟨t, (runSteps_succ ((step_program hp).trans hu) _).trans ht, ?_⟩
    rw [hrt, hru, hregister, List.map_cons, List.sum_cons, Nat.add_comm, Function.iterate_add_apply]

end program

/-- R30: a command that is no `M32.SEED` advances a seeded M32 by its advances and leaves it seeded. -/
theorem exec_advances_m32 (i : Instr) (s : State) (hi : isSeed32 i = false) (hs : s.v32 = true) :
    ∃ t, exec i s = .next t ∧ t.pending = s.pending ∧ t.v32 = true ∧ t.s32 = mix32^[advancesOf32 true i] s.s32 := by
  obtain ⟨t, r, ht, p⟩ := exec_performed i s
  obtain ⟨u, hu, hprogress⟩ := exec_progress i s
  obtain rfl := Host.Outcome.next.inj (ht.symm.trans hu)
  exact ⟨t, ht, p.pending, by rw [hprogress.v32, hs, Bool.true_or], hs ▸ hprogress.s32 hi⟩

/-- R30: a command that is no `M64.SEED` advances a seeded M64 by its advances and leaves it seeded. -/
theorem exec_advances_m64 (i : Instr) (s : State) (hi : isSeed64 i = false) (hs : s.v64 = true) :
    ∃ t, exec i s = .next t ∧ t.pending = s.pending ∧ t.v64 = true ∧ t.s64 = mix64^[advancesOf64 true i] s.s64 := by
  obtain ⟨t, r, ht, p⟩ := exec_performed i s
  obtain ⟨u, hu, hprogress⟩ := exec_progress i s
  obtain rfl := Host.Outcome.next.inj (ht.symm.trans hu)
  exact ⟨t, ht, p.pending, by rw [hprogress.v64, hs, Bool.true_or], hs ▸ hprogress.s64 hi⟩

/-- Settles O47: the first step loads the seed, and the commands behind it advance it. -/
theorem stateIsTheSeedAdvanced : Obligations.StateIsTheSeedAdvanced := by
  constructor
  · intro s b0 b1 b2 b3 is his hp
    obtain ⟨t, ht, hreg⟩ := runSteps_register exec_advances_m32 (fun _ _ => rfl) (fun _ _ => rfl) is
      ((((s.setPending (program is)).setS32 (seedValue32 s.byteOrder b0 b1 b2 b3)).setV32).respond .ok 0#64) his rfl rfl
    exact ⟨t, (runSteps_succ (step_program hp) _).trans ht, hreg⟩
  · intro s b0 b1 b2 b3 b4 b5 b6 b7 is his hp
    obtain ⟨t, ht, hreg⟩ := runSteps_register exec_advances_m64 (fun _ _ => rfl) (fun _ _ => rfl) is
      ((((s.setPending (program is)).setS64 (seedValue64 s.byteOrder b0 b1 b2 b3 b4 b5 b6 b7)).setV64).respond .ok 0#64)
      his rfl rfl
    exact ⟨t, (runSteps_succ (step_program hp) _).trans ht, hreg⟩

end Sys2Proof.Machine
end

section
/-! Byte sequences (spec/00_scope.md R10): reading and writing are inverse under both byte orders, MemWrite stores what
writing gives (spec/20_memory.md R42), and the assembler's SEEDW writes what a seed command reads (spec/30_encoding.md
R73). -/

namespace Sys2Proof.Machine

/-- R10: byte `j` of `to_bytes(v, n)`, under either byte order. -/
theorem toBytes_getElem?_slice (bo : ByteOrder) (v : Nat) {n j : Nat} (h : j < n) :
    (toBytes bo v n)[j]? = some (BitVec.ofNat 8 (match bo with
      | .little => v / 2 ^ (8 * j)
      | .big => v / 2 ^ (8 * (n - 1 - j)))) := by
  cases bo with
  | little => rw [toBytes, toBytesLittle_getElem? h, Nat.pow_mul]
  | big =>
    rw [toBytes, List.getElem?_reverse (by simpa using h), toBytesLittle_length, toBytesLittle_getElem? (by omega),
      show 256 = 2 ^ 8 from rfl, ← Nat.pow_mul]

/-- Settles O45: MemWrite is one run of writes of the bytes of its value. -/
theorem memWriteStoresItsBytes : Obligations.MemWriteStoresItsBytes := by
  intro addr n v s h
  refine ⟨_, memWrite_next h, fun j hj => ?written, fun a ha => ?kept⟩
  case written =>
    rw [Memory.read_store, toBytes_length, if_pos (by omega), Nat.add_sub_cancel_left]
    exact toBytes_getElem?_slice s.byteOrder v hj
  case kept => rw [Memory.read_store, toBytes_length, if_neg (by omega)]

/-- R10: the bytes of a value denote it. -/
theorem fromBytes_toBytes (bo : ByteOrder) {v n : Nat} (h : v < 2 ^ (8 * n)) : fromBytes bo (toBytes bo v n) = v := by
  have hlittle : fromBytesLittle (toBytesLittle v n) = v := by
    rw [fromBytesLittle_toBytesLittle, Nat.mod_eq_of_lt (by rwa [Nat.pow_mul] at h)]
  cases bo with
  | little => exact hlittle
  | big => rw [fromBytes, toBytes, List.reverse_reverse, hlittle]

/-- R10: a byte sequence is the bytes of the value it denotes. -/
theorem toBytes_fromBytes (bo : ByteOrder) (bs : List Byte) : toBytes bo (fromBytes bo bs) bs.length = bs := by
  cases bo with
  | little => exact toBytesLittle_fromBytesLittle bs
  | big => rw [toBytes, fromBytes, ← List.length_reverse, toBytesLittle_fromBytesLittle, List.reverse_reverse]

/-- Settles O46. -/
theorem byteSequencesRoundTrip : Obligations.ByteSequencesRoundTrip := fun bo =>
  ⟨fun _ _ => fromBytes_toBytes bo, toBytes_fromBytes bo⟩

/-- R73: four bytes make a seed command of M32. -/
theorem seedOfBytes_four {bs : List Byte} (h : bs.length = 4) :
    ∃ b0 b1 b2 b3, bs = [b0, b1, b2, b3] ∧ seedOfBytes bs = .ok (.m32Seed b0 b1 b2 b3) := by
  obtain ⟨b0, b1, b2, b3, rfl⟩ := List.length_eq_four.1 h
  exact ⟨b0, b1, b2, b3, rfl, rfl⟩

/-- R73: eight bytes make a seed command of M64. -/
theorem seedOfBytes_eight {bs : List Byte} (h : bs.length = 8) :
    ∃ b0 b1 b2 b3 b4 b5 b6 b7, bs = [b0, b1, b2, b3, b4, b5, b6, b7] ∧
      seedOfBytes bs = .ok (.m64Seed b0 b1 b2 b3 b4 b5 b6 b7) := by
  match bs, h with
  | [b0, b1, b2, b3, b4, b5, b6, b7], _ => exact ⟨b0, b1, b2, b3, b4, b5, b6, b7, rfl, rfl⟩

/-- R73: `M32.SEEDW v` assembles to the seed command of the four bytes of `v`. -/
theorem assemble_m32Seedw (bo : ByteOrder) {v : Nat} (h : v < 2 ^ 32) : ∃ b0 b1 b2 b3,
    toBytes bo v 4 = [b0, b1, b2, b3] ∧ assemble bo (.m32Seedw v) = .ok (.m32Seed b0 b1 b2 b3) := by
  rw [assemble, if_pos (by simpa [AsmCommand.wellFormed] using h)]
  exact seedOfBytes_four (toBytes_length bo v 4)

/-- R73: `M64.SEEDW v` assembles to the seed command of the eight bytes of `v`. -/
theorem assemble_m64Seedw (bo : ByteOrder) {v : Nat} (h : v < 2 ^ 64) : ∃ b0 b1 b2 b3 b4 b5 b6 b7,
    toBytes bo v 8 = [b0, b1, b2, b3, b4, b5, b6, b7] ∧
      assemble bo (.m64Seedw v) = .ok (.m64Seed b0 b1 b2 b3 b4 b5 b6 b7) := by
  rw [assemble, if_pos (by simpa [AsmCommand.wellFormed] using h)]
  exact seedOfBytes_eight (toBytes_length bo v 8)

/-- Settles O52: the seed command reads back the bytes SEEDW writes. -/
theorem seedwLoadsItsValue : Obligations.SeedwLoadsItsValue := by
  constructor
  · intro v s
    obtain ⟨b0, b1, b2, b3, hbytes, hasm⟩ := assemble_m32Seedw s.byteOrder v.isLt
    refine ⟨_, _, hasm, rfl, ?_, rfl⟩
    change seedValue32 s.byteOrder b0 b1 b2 b3 = v
    rw [seedValue32, ← hbytes, fromBytes_toBytes _ v.isLt, BitVec.ofNat_toNat, BitVec.setWidth_eq]
  · intro v s
    obtain ⟨b0, b1, b2, b3, b4, b5, b6, b7, hbytes, hasm⟩ := assemble_m64Seedw s.byteOrder v.isLt
    refine ⟨_, _, hasm, rfl, ?_, rfl⟩
    change seedValue64 s.byteOrder b0 b1 b2 b3 b4 b5 b6 b7 = v
    rw [seedValue64, ← hbytes, fromBytes_toBytes _ v.isLt, BitVec.ofNat_toNat, BitVec.setWidth_eq]

/-- R72: a command with a number out of range does not assemble. -/
theorem assemble_of_not_wellFormed (bo : ByteOrder) {c : AsmCommand} (h : c.wellFormed = false) :
    assemble bo c = .error .outOfRange := if_neg (Bool.eq_false_iff.1 h)

/-- R72, R73: a command whose numbers are in range assembles. -/
theorem assemble_of_wellFormed (bo : ByteOrder) {c : AsmCommand} (h : c.wellFormed = true) :
    ∃ i, assemble bo c = .ok i := by
  cases c with
  | m32Seedw v =>
    obtain ⟨b0, b1, b2, b3, -, hasm⟩ := assemble_m32Seedw bo (v := v) (by simpa [AsmCommand.wellFormed] using h)
    exact ⟨_, hasm⟩
  | m64Seedw v =>
    obtain ⟨b0, b1, b2, b3, b4, b5, b6, b7, -, hasm⟩ :=
      assemble_m64Seedw bo (v := v) (by simpa [AsmCommand.wellFormed] using h)
    exact ⟨_, hasm⟩
  | m32Seed | m64Seed | m32Next32 | m32Next64 | m64Next32 | m64Next64 | m32Fill | m64Fill => exact ⟨_, if_pos h⟩

/-- R65, R72: a byte as a number is in range, and the number as a byte is the byte. -/
@[simp] theorem asByte_toNat (b : Byte) : asByte b.toNat = b := by simp [asByte]

@[simp] theorem asWord32_toNat (w : Word32) : asWord32 w.toNat = w := by simp [asWord32]

theorem byte_toNat_le (b : Byte) : b.toNat ≤ 255 := Nat.le_of_lt_succ b.isLt

theorem word32_toNat_le (w : Word32) : w.toNat ≤ 4294967295 := Nat.le_of_lt_succ w.isLt

/-- Settles O51: the assembler's one check, and the operands of each command that has them. -/
theorem assemblerChecksItsNumbers : Obligations.AssemblerChecksItsNumbers := by
  intro bo
  refine ⟨fun c => ⟨⟨fun h => ?rejected, assemble_of_not_wellFormed bo⟩, assemble_of_wellFormed bo⟩, ?fills, ?seeds32,
    ?seeds64⟩
  case rejected =>
    refine Bool.eq_false_iff.2 fun hwf => ?_
    obtain ⟨i, hi⟩ := assemble_of_wellFormed bo hwf
    cases hi.symm.trans h
  case fills =>
    intro base len
    simp [assemble, AsmCommand.wellFormed, word32_toNat_le]
  case seeds32 =>
    intro b0 b1 b2 b3
    simp [assemble, AsmCommand.wellFormed, byte_toNat_le]
  case seeds64 =>
    intro b0 b1 b2 b3 b4 b5 b6 b7
    simp [assemble, AsmCommand.wellFormed, byte_toNat_le]

end Sys2Proof.Machine
end

section
/-! The two transitions as functions of a word. A rotation, a xor-shift and a product with an odd constant can each be
undone (spec/40_mixer32.md R88, spec/41_mixer64.md R108). -/

namespace Sys2Proof.Machine

/-- R8, R81: the rotation by `ROT` puts the low 17 bits of a word above its high 15. -/
theorem rotl32_rot_eq_append (v : Word32) : rotl32 v mix32Rot = v.extractLsb' 0 17 ++ v.extractLsb' 17 15 := by
  apply BitVec.eq_of_getLsbD_eq
  intro i hi
  simp only [rotl32, mix32Rot, BitVec.getLsbD_or, BitVec.getLsbD_shiftLeft, BitVec.getLsbD_ushiftRight,
    BitVec.getLsbD_append, BitVec.getLsbD_extractLsb']
  by_cases h : i < 15
  · simp [h, hi]
  · simp [h, hi, show i - 15 < 17 by omega, BitVec.getLsbD_of_ge v (17 + i) (by omega)]

/-- R88: the rotation can be undone, its parts being those of the word. -/
theorem rotl32_rot_injective : Function.Injective fun v => rotl32 v mix32Rot := by
  intro v w h
  simp only [rotl32_rot_eq_append] at h
  obtain ⟨hlow, hhigh⟩ := (append_inj_iff (m := 17) (n := 15)).1 h
  rw [← append_extractLsb' (m := 15) (n := 17) v, ← append_extractLsb' (m := 15) (n := 17) w, hlow, hhigh]

/-- R7, R88, R108: a product with a constant that has an inverse modulo `2^n` can be undone. -/
theorem mul_injective_of_inverse {n : Nat} {c d : BitVec n} (h : c * d = 1#n) : Function.Injective (c * ·) :=
  (IsUnit.of_mul_eq_one d h).mul_right_injective

/-- R88: each stage of `mix32` can be undone. -/
theorem mix32_injective : Function.Injective mix32 :=
  (mul_injective_of_inverse (c := mix32C2) (d := 0x56ed309b#32) (by decide)).comp <|
    rotl32_rot_injective.comp (mul_injective_of_inverse (c := mix32C1) (d := 0xdee13bb1#32) (by decide))

/-- R87: zero is a fixed point of `mix32`. -/
theorem mix32_zero : mix32 0#32 = 0#32 := by decide

/-- Settles O30: on a finite type an injective function is bijective, and it gives its value at 0 nowhere else. -/
theorem mix32IsAPermutation : Obligations.Mix32IsAPermutation :=
  ⟨Finite.injective_iff_bijective.1 mix32_injective, fun _ hx h => hx (mix32_injective (h.trans mix32_zero.symm))⟩

/-- R108: shifting by more than half the width twice leaves nothing, so a xor-shift undoes itself. -/
theorem xorShift_involutive : Function.Involutive xorShift := by
  intro k
  have htwice : k >>> mix64Shift >>> mix64Shift = 0#64 := by
    rw [← BitVec.shiftRight_add, BitVec.ushiftRight_eq_zero (by decide)]
  rw [xorShift, xorShift, BitVec.ushiftRight_xor_distrib, htwice, BitVec.xor_zero, BitVec.xor_assoc, BitVec.xor_self,
    BitVec.xor_zero]

/-- R108: each stage of `mix64` can be undone. -/
theorem mix64_injective : Function.Injective mix64 :=
  xorShift_involutive.injective.comp <|
    (mul_injective_of_inverse (c := mix64K2) (d := 0x9cb4b2f8129337db#64) (by decide)).comp <|
    xorShift_involutive.injective.comp <|
    (mul_injective_of_inverse (c := mix64K1) (d := 0x4f74430c22a54005#64) (by decide)).comp
      xorShift_involutive.injective

/-- R107: zero is a fixed point of `mix64`. -/
theorem mix64_zero : mix64 0#64 = 0#64 := by decide

/-- Settles O37: as for `mix32`. -/
theorem mix64IsAPermutation : Obligations.Mix64IsAPermutation :=
  ⟨Finite.injective_iff_bijective.1 mix64_injective, fun _ hx h => hx (mix64_injective (h.trans mix64_zero.symm))⟩

/-- R86: a word above another is the lower one or the upper one shifted up. -/
theorem append_eq_or_shiftLeft (hi lo : Word32) :
    (hi ++ lo : Word64) = lo.setWidth 64 ||| (hi.setWidth 64 <<< 32) := by
  rw [BitVec.or_comm, ← BitVec.setWidth_append_eq_shiftLeft_setWidth_or, BitVec.setWidth_eq]

/-- Settles O29: the two advances at once, and one behind the other. -/
theorem m32Next64DrawsTwoWords : Obligations.M32Next64DrawsTwoWords := by
  refine fun s => ⟨execM32Next64_seeded, fun h => exec_unseeded .m32Next64 h rfl rfl, fun h => ?_⟩
  refine ⟨_, _, _, _, _, execM32Next32_seeded h,
    execM32Next32_seeded (s := (s.setS32 (mix32 s.s32)).respond .ok ((mix32 s.s32).setWidth 64)) h,
    execM32Next64_seeded h, rfl, List.append_assoc _ _ _, ?_⟩
  rw [append_eq_or_shiftLeft]
  rfl

/-- R111: the low half of a word, zero-extended, is the word masked. -/
theorem setWidth_extractLsb'_low (w : Word64) : (w.extractLsb' 0 32).setWidth 64 = w &&& 0xffffffff#64 := by
  apply BitVec.eq_of_toNat_eq
  rw [BitVec.toNat_setWidth, BitVec.extractLsb'_toNat, BitVec.toNat_and,
    show (0xffffffff#64).toNat = 2 ^ 32 - 1 from rfl, Nat.and_two_pow_sub_one_eq_mod, Nat.shiftRight_zero]
  omega

/-- Settles O36: both draws make one advance, and differ in the half of it they answer. -/
theorem m64Next32IsNext64Truncated : Obligations.M64Next32IsNext64Truncated := by
  intro s h
  refine ⟨_, _, _, execM64Next64_seeded h, execM64Next32_seeded h, rfl, ?_⟩
  rw [setWidth_extractLsb'_low]
  rfl

end Sys2Proof.Machine
end

section
/-! What a fill leaves (spec/42_fill_bytes.md): each byte of its range from the unit's stream, the unit advanced (R122
to R127). A unit in state zero writes zeros (spec/40_mixer32.md R87, spec/41_mixer64.md R107), fills of whole chunks
join up (R130), and short fills write what the draws answer (R131). -/

namespace Sys2Proof.Machine

/-- Settles O39: the fill's one lemma, read for M32. -/
theorem m32FillWritesItsRange : Obligations.M32FillWritesItsRange := by
  intro base len s hs hr
  obtain ⟨m, hm, hin, hout, -⟩ := fillBytes_spec .m32 base.toNat len.toNat s hr
  exact ⟨m, (fillCommand_accepted (u := .m32) hs (rangeOk_iff.2 hr)).trans hm, hin, hout⟩

/-- Settles O40: the fill's one lemma, read for M64. -/
theorem m64FillWritesItsRange : Obligations.M64FillWritesItsRange := by
  intro base len s hs hr
  obtain ⟨m, hm, hin, hout, -⟩ := fillBytes_spec .m64 base.toNat len.toNat s hr
  exact ⟨m, (fillCommand_accepted (u := .m64) hs (rangeOk_iff.2 hr)).trans hm, hin, hout⟩

/-- R10: every byte of the zero word is zero. -/
theorem byteOfWord_zero (bo : ByteOrder) (n j : Nat) : byteOfWord bo 0#64 n j = 0#8 := by
  cases bo <;> exact BitVec.extractLsb'_zero

/-- R87: no advance leaves zero. -/
theorem mix32_iterate_zero (n : Nat) : mix32^[n] 0#32 = 0#32 := Function.iterate_fixed mix32_zero n

/-- R107: no advance leaves zero. -/
theorem mix64_iterate_zero (n : Nat) : mix64^[n] 0#64 = 0#64 := Function.iterate_fixed mix64_zero n

/-- R87: the stream of the zero state is zeros. -/
theorem fillByte32_zero (bo : ByteOrder) (len i : Nat) : fillByte32 bo 0#32 len i = 0#8 := by
  rw [fillByte32, chunkWord32, mix32_iterate_zero, mix32_iterate_zero, BitVec.zero_append_zero, byteOfWord_zero]

/-- R107: the stream of the zero state is zeros. -/
theorem fillByte64_zero (bo : ByteOrder) (len i : Nat) : fillByte64 bo 0#64 len i = 0#8 := by
  rw [fillByte64, chunkWord64, mix64_iterate_zero, byteOfWord_zero]

/-- A register written with what it holds. -/
theorem State.setS32_eq_self {s : State} {w : Word32} (h : s.s32 = w) : s.setS32 w = s := by rw [← h]; rfl

theorem State.setS64_eq_self {s : State} {w : Word64} (h : s.s64 = w) : s.setS64 w = s := by rw [← h]; rfl

/-- R83: four bytes put together are zero exactly when each is. -/
theorem append_four_eq_zero_iff {b0 b1 b2 b3 : Byte} :
    (b0 ++ b1 ++ b2 ++ b3 : Word32) = 0#32 ↔ b0 = 0#8 ∧ b1 = 0#8 ∧ b2 = 0#8 ∧ b3 = 0#8 := by
  rw [show (0#32 : Word32) = 0#8 ++ 0#8 ++ 0#8 ++ 0#8 by decide, append_inj_iff (m := 24) (n := 8),
    append_inj_iff (m := 16) (n := 8), append_inj_iff (m := 8) (n := 8), and_assoc, and_assoc]

/-- R87: only the all-zero seed is zero, under either byte order. -/
theorem seedValue32_eq_zero_iff (bo : ByteOrder) (b0 b1 b2 b3 : Byte) :
    seedValue32 bo b0 b1 b2 b3 = 0#32 ↔ b0 = 0#8 ∧ b1 = 0#8 ∧ b2 = 0#8 ∧ b3 = 0#8 := by
  rw [seedValue32_eq]
  cases bo with
  | little => exact append_four_eq_zero_iff.trans (by tauto)
  | big => exact append_four_eq_zero_iff

/-- Settles O31: each draw and fill with the register's next value, zero, put in. -/
theorem m32ZeroStateGivesZeros : Obligations.M32ZeroStateGivesZeros := by
  refine ⟨mix32_zero, fun s hs h0 => ?zeros, fun b0 b1 b2 b3 s =>
    ⟨_, rfl, seedValue32_eq_zero_iff s.byteOrder b0 b1 b2 b3⟩⟩
  have hnext : mix32 s.s32 = 0#32 := by rw [h0, mix32_zero]
  refine ⟨(execM32Next32_seeded hs).trans ?next32, (execM32Next64_seeded hs).trans ?next64, fun base len hr => ?fill⟩
  case next32 =>
    rw [hnext, State.setS32_eq_self h0]
    rfl
  case next64 =>
    rw [hnext, mix32_zero, State.setS32_eq_self h0]
    rfl
  case fill =>
    obtain ⟨m, hm, hin, -⟩ := m32FillWritesItsRange base len s hs hr
    refine ⟨m, ?_, fun i hi => by rw [hin i hi, h0, fillByte32_zero]⟩
    rw [hm, h0, mix32_iterate_zero, ← h0]

/-- Settles O38: as for M32. -/
theorem m64ZeroStateGivesZeros : Obligations.M64ZeroStateGivesZeros := by
  refine ⟨mix64_zero, fun s hs h0 => ?zeros⟩
  have hnext : mix64 s.s64 = 0#64 := by rw [h0, mix64_zero]
  refine ⟨(execM64Next32_seeded hs).trans ?next32, (execM64Next64_seeded hs).trans ?next64, fun base len hr => ?fill⟩
  case next32 =>
    rw [hnext, State.setS64_eq_self h0]
    rfl
  case next64 =>
    rw [hnext, State.setS64_eq_self h0]
    rfl
  case fill =>
    obtain ⟨m, hm, hin, -⟩ := m64FillWritesItsRange base len s hs hr
    refine ⟨m, ?_, fun i hi => by rw [hin i hi, h0, fillByte64_zero]⟩
    rw [hm, h0, mix64_iterate_zero, ← h0]

/-- R125: a fill of whole chunks advances its unit by one 64-bit draw for each. -/
theorem State.filled_chunks (u : MixUnit) (q : Nat) (s : State) : s.filled u (8 * q) = s.advanced u q := by
  rw [← State.filled_advanced, Nat.mul_mod_right, State.filled_zero, Nat.mul_div_cancel_left q (by decide)]

/-- R125, R130: whole chunks and a fill behind them advance the unit as one fill. -/
theorem State.filled_add (u : MixUnit) (q n : Nat) (s : State) :
    (s.advanced u q).filled u n = s.filled u (8 * q + n) := by
  rw [← State.filled_advanced u n, State.advanced_advanced, ← State.filled_advanced u (8 * q + n),
    Nat.mul_add_mod, Nat.mul_add_div (by decide)]

@[simp] theorem State.filled_respond (u : MixUnit) (len : Nat) (s : State) (c : Code) (d : Word64) :
    (s.respond c d).filled u len = (s.filled u len).respond c d := by cases u <;> rfl

@[simp] theorem State.fillImage_respond (u : MixUnit) (len : Nat) (s : State) (c : Code) (d : Word64) :
    (s.respond c d).fillImage u len = s.fillImage u len := by cases u <;> rfl

@[simp] theorem State.seeded_respond (u : MixUnit) (s : State) (c : Code) (d : Word64) :
    (s.respond c d).seeded u = s.seeded u := by cases u <;> rfl

@[simp] theorem State.advanced_seeded (u : MixUnit) (k : Nat) (s : State) : (s.advanced u k).seeded u = s.seeded u := by
  cases u <;> rfl

/-- R130: the address right behind a range inside BUF is BASE + N1, or the range ends at the top of BUF and nothing fits
behind it. -/
theorem toNat_add_or_eq_zero {base n1 n2 : Word32} (h : base.toNat + n1.toNat + n2.toNat ≤ bufSize) :
    (base + n1).toNat = base.toNat + n1.toNat ∨ n2.toNat = 0 := by
  rcases Nat.lt_or_ge (base.toNat + n1.toNat) (2 ^ 32) with hlt | hge
  · exact .inl (by rw [BitVec.toNat_add, Nat.mod_eq_of_lt hlt])
  · exact .inr (by unfold bufSize at h; omega)

/-- R130: whole chunks and the bytes of a fill behind them are stored as the bytes of one fill. -/
theorem store_fillImage_append {u : MixUnit} {base n1 n2 : Word32} {q : Nat} (hq : n1.toNat = 8 * q)
    (h : base.toNat + n1.toNat + n2.toNat ≤ bufSize) (s : State) (m : Memory) :
    Memory.store (Memory.store m base.toNat (s.fillImage u (8 * q))) (base + n1).toNat
      ((s.advanced u q).fillImage u n2.toNat) = Memory.store m base.toNat (s.fillImage u (8 * q + n2.toNat)) := by
  rcases toNat_add_or_eq_zero h with hsum | hempty
  · rw [hsum, hq, State.fillImage_append, ← Memory.store_append, State.fillImage_length]
  · rw [hempty, State.fillImage_zero, Memory.store_nil, Nat.add_zero]

/-- Settles O42: the second fill begins with the unit and BUF as the chunks leave them. -/
theorem fillsConcatenateAtWholeChunks : Obligations.FillsConcatenateAtWholeChunks := by
  intro u base n1 n2 s hs hchunks hlen hr
  obtain ⟨q, hq⟩ : ∃ q, n1.toNat = 8 * q := ⟨n1.toNat / 8, by omega⟩
  have hsum : (n1 + n2).toNat = 8 * q + n2.toNat := by rw [BitVec.toNat_add, Nat.mod_eq_of_lt hlen, hq]
  have hr' : base.toNat + n1.toNat + n2.toNat ≤ bufSize := hr
  have hr1 : base.toNat + n1.toNat ≤ bufSize := by omega
  have hr2 : (base + n1).toNat + n2.toNat ≤ bufSize := by
    rcases toNat_add_or_eq_zero hr' with h | h
    · rwa [h]
    · rw [h]; exact (base + n1).isLt.le
  have hr12 : base.toNat + (n1 + n2).toNat ≤ bufSize := by omega
  refine ⟨_, _, _, exec_fillOf_inRange hs hr1, exec_fillOf_inRange ?seeded hr2, exec_fillOf_inRange hs hr12, ?same⟩
  case seeded => simpa [hq, State.filled_chunks] using hs
  case same =>
    simp only [hq, hsum, State.filled_chunks, State.filled_respond, State.filled_setBuf, State.filled_add,
      State.fillImage_respond, State.fillImage_setBuf, State.respond_buf, State.setBuf_buf,
      store_fillImage_append hq hr']
    rfl

/-- R122: in a fill of up to 8 bytes every position lies in the one chunk or tail. -/
theorem chunkBytes_of_le {n i : Nat} (hn : n ≤ 8) (hi : i < n) : chunkBytes n i = n := by
  rw [chunkBytes]
  split <;> omega

/-- R131: a fill of up to 8 bytes writes the bytes of one 64-bit draw of M32. -/
theorem fillByte32_of_le (bo : ByteOrder) (x : Word32) {n i : Nat} (hn : n ≤ 8) (hi : i < n) :
    fillByte32 bo x n i = byteOfWord bo (mix32 (mix32 x) ++ mix32 x) n i := by
  rw [fillByte32, chunkBytes_of_le hn hi, Nat.div_eq_of_lt (by omega), Nat.mod_eq_of_lt (by omega)]
  rfl

/-- R131: a fill of up to 8 bytes writes the bytes of one 64-bit draw of M64. -/
theorem fillByte64_of_le (bo : ByteOrder) (x : Word64) {n i : Nat} (hn : n ≤ 8) (hi : i < n) :
    fillByte64 bo x n i = byteOfWord bo (mix64 x) n i := by
  rw [fillByte64, chunkBytes_of_le hn hi, Nat.div_eq_of_lt (by omega), Nat.mod_eq_of_lt (by omega)]
  rfl

/-- R120, R131: the low-order bytes of the 32-bit draw of M32, zero-extended, are those of its 64-bit draw. -/
theorem toBytes_next32_getElem? (bo : ByteOrder) (x : Word32) {n j : Nat} (hn : n ≤ 4) (hj : j < n) :
    (toBytes bo ((mix32 x).setWidth 64 : Word64).toNat n)[j]? = some (fillByte32 bo x n j) := by
  rw [toBytes_getElem? _ _ hj, byteOfWord_low bo (mix32 (mix32 x)) _ hn hj, fillByte32_of_le bo x (by omega) hj]

/-- Settles O43: a short fill writes the bytes of the first draw, and its length says how far it advances M32. -/
theorem m32FillsAgreeWithDraws : Obligations.M32FillsAgreeWithDraws := by
  intro base s hs hr
  refine ⟨_, _, _, _, execM32Next32_seeded hs, rfl, execM32Next64_seeded hs, rfl, ?eight, fun n h1 h3 => ?short, ?four⟩
  case eight =>
    obtain ⟨m, hm, hin, -⟩ := m32FillWritesItsRange base 8#32 s hs hr
    refine ⟨_, hm, rfl, fun j hj => (hin j hj).trans ?_⟩
    rw [toBytes_getElem? _ _ hj]
    exact congrArg some (fillByte32_of_le s.byteOrder s.s32 (Nat.le_refl 8) hj)
  case short =>
    obtain ⟨m, hm, hin, -⟩ := m32FillWritesItsRange base n s hs (by omega)
    have hadv : fillAdvances32 n.toNat = 1 := by rw [fillAdvances32]; split <;> [skip; split] <;> omega
    refine ⟨_, hm, by rw [hadv]; rfl, fun j hj => (hin j hj).trans ?_⟩
    rw [toBytes_lowBytes, toBytes_next32_getElem? _ _ (by omega) hj]
  case four =>
    obtain ⟨m, hm, hin, -⟩ := m32FillWritesItsRange base 4#32 s hs (by rw [BitVec.toNat_ofNat]; omega)
    refine ⟨_, hm, rfl, fun j hj => (hin j hj).trans ?_⟩
    rw [toBytes_next32_getElem? _ _ (Nat.le_refl 4) hj]
    rfl

/-- R106, R131: the low-order bytes of the 32-bit draw of M64, zero-extended, are those of its 64-bit draw. -/
theorem toBytes_next32_m64_getElem? (bo : ByteOrder) (x : Word64) {n j : Nat} (hn : n ≤ 4) (hj : j < n) :
    (toBytes bo (((mix64 x).extractLsb' 0 32).setWidth 64 : Word64).toNat n)[j]? = some (fillByte64 bo x n j) := by
  rw [toBytes_getElem? _ _ hj, byteOfWord_extract bo _ hn hj, fillByte64_of_le bo x (by omega) hj]

/-- Settles O44: a short fill writes the bytes of the one draw it makes. -/
theorem m64FillsAgreeWithDraws : Obligations.M64FillsAgreeWithDraws := by
  intro base s hs hr
  refine ⟨_, _, _, _, execM64Next32_seeded hs, rfl, execM64Next64_seeded hs, rfl, rfl, ?eight, fun n h1 h4 => ?short⟩
  case eight =>
    obtain ⟨m, hm, hin, -⟩ := m64FillWritesItsRange base 8#32 s hs hr
    refine ⟨_, hm, rfl, fun j hj => (hin j hj).trans ?_⟩
    rw [toBytes_getElem? _ _ hj]
    exact congrArg some (fillByte64_of_le s.byteOrder s.s64 (Nat.le_refl 8) hj)
  case short =>
    obtain ⟨m, hm, hin, -⟩ := m64FillWritesItsRange base n s hs (by omega)
    have hadv : fillAdvances64 n.toNat = 1 := by rw [fillAdvances64]; split <;> omega
    refine ⟨_, hm, by rw [hadv]; rfl, fun j hj => (hin j hj).trans ?_⟩
    rw [toBytes_lowBytes, toBytes_next32_m64_getElem? _ _ h4 hj]

end Sys2Proof.Machine
end
